-- ==== Sys2Proof/Word.lean ====
section
/-! DEFINITION. The datum type of the block, the 8-bit cell, and how a program word is held.

Rules of spec/: 10_state.md R22 (a cell is 8 bits, unsigned); 30_encoding.md R80 (a program word is
`P_IW + 3` bits). `P_IW` is an open parameter (00_scope.md R6), so a program word and a program index are
natural numbers, as R7 and R8 take them (a field of a word is "an unsigned number"), and their widths are
conditions checked where a value is stored (assumption log 2). -/

namespace Sys2Proof

/-- A tape cell's value and a byte on a port: 8 bits, unsigned (R22, R54). -/
abbrev Byte := BitVec 8

end Sys2Proof
end

