-- ==== Sys2Proof/Config.lean ====
section
/-! DEFINITION. What this hardware fixes: the parameters of 00_scope.md R6.

The one OPEN parameter, `P_IW`, is no constant here: it is the field `piw` of `Machine.State`, so every
statement over all states is a statement over every value of it (assumption log 1). -/

namespace Sys2Proof

/-- `TAPE_LEN`: the tape has exactly 30000 cells (R6, R22). -/
def Config.tapeLen : Nat := 30000

/-- The width of the `op` field, bits [2:0] of a program word (R80). -/
def Config.opWidth : Nat := 3

/-- `WORD_W = P_IW + 3` (R6, R80). -/
def Config.wordWidth (piw : Nat) : Nat := piw + Config.opWidth

/-- The largest program the block supports: `N ≤ 2^P_IW − 1`, so that `ip` can hold `N` (R6, D3). -/
def Config.maxProgLen (piw : Nat) : Nat := 2 ^ piw - 1

/-- DESIGN CHOICE (assumption log 1), unsafe: the value of the open parameter `P_IW` at `State.reset` and
in `decodeTableWord`: 16, the value the spec's own worked encodings use (R6). -/
def Config.examplePiw : Nat := 16

/-- The two end-of-input policies the source leaves to the implementation (42_io.md, D8, U1). -/
inductive EofPolicy where
  | zero
  | unchanged
  deriving DecidableEq, Repr

end Sys2Proof
end

