-- ==== Sys2Proof/Syntax.lean ====
section
/-! DEFINITION. The instruction set: one constructor per row of spec/opcode_table.json
(00_scope.md R1; 30_encoding.md R82). -/

namespace Sys2Proof

/-- The eight opcodes. The two loop opcodes carry their resolved target, an absolute program index
(30_encoding.md R81); the other six carry no payload (R84). -/
inductive Instr where
  /-- `Inc`, 40_cell_arith.md R120. -/
  | inc
  /-- `Dec`, 40_cell_arith.md R121. -/
  | dec
  /-- `Next`, 41_data_pointer.md R130. -/
  | next
  /-- `Prev`, 41_data_pointer.md R131. -/
  | prev
  /-- `In`, 42_io.md R140. -/
  | input
  /-- `Out`, 42_io.md R141. -/
  | output
  /-- `LoopForward`, 43_loop_control.md R160; the target is the index of the matching LoopBack. -/
  | loopForward (t : Nat)
  /-- `LoopBack`, 43_loop_control.md R161; the target is the index of the matching LoopForward. -/
  | loopBack (t : Nat)
  deriving DecidableEq, Repr

/-- The code of the opcode in bits [2:0] of its word (30_encoding.md R82). -/
def Instr.opCode : Instr → Nat
  | .inc => 0b000
  | .dec => 0b001
  | .next => 0b010
  | .prev => 0b011
  | .input => 0b100
  | .output => 0b101
  | .loopForward _ => 0b110
  | .loopBack _ => 0b111

/-- The `tgt` field of the instruction's word as the assembler writes it: the target of a loop opcode, and
0 for the six others (30_encoding.md R102). -/
def Instr.target : Instr → Nat
  | .inc | .dec | .next | .prev | .input | .output => 0
  | .loopForward t | .loopBack t => t

/-- Whether the opcode is a LoopForward. -/
def Instr.isLoopForward : Instr → Bool
  | .loopForward _ => true
  | .inc | .dec | .next | .prev | .input | .output | .loopBack _ => false

/-- Whether the opcode is a LoopBack. -/
def Instr.isLoopBack : Instr → Bool
  | .loopBack _ => true
  | .inc | .dec | .next | .prev | .input | .output | .loopForward _ => false

end Sys2Proof
end

