-- ==== Sys2Proof/WellFormed.lean ====
section
/-! DEFINITION. When an instruction has a word: its target fits the `P_IW`-bit `tgt` field
(30_encoding.md R80, R81). -/

namespace Sys2Proof

/-- An instruction is well-formed at index width `piw` when its target is below `2^piw`. The six opcodes
without a payload always are. -/
def Instr.wf (piw : Nat) : Instr → Bool
  | .inc | .dec | .next | .prev | .input | .output => true
  | .loopForward t => decide (t < 2 ^ piw)
  | .loopBack t => decide (t < 2 ^ piw)

/-- `Instr.wf` as a proposition. -/
abbrev Instr.WellFormed (piw : Nat) (i : Instr) : Prop := i.wf piw = true

end Sys2Proof
end

