-- ==== Sys2Proof/Decode.lean ====
section
/-! DEFINITION. The decoder (30_encoding.md R81 to R85) and, after it, the encoder (R80, R102).

The word format has no illegal encoding: every word of `P_IW + 3` bits decodes (R83, R85). The one thing
the decoder rejects is a number that is no word of the hardware at all, wider than `P_IW + 3` bits. -/

namespace Sys2Proof

/-- Why a number is not decoded. Safe: no program memory of the hardware holds such a number. -/
inductive DecodeError where
  /-- The number has a bit above bit `P_IW + 2`. -/
  | wordTooWide
  deriving DecidableEq, Repr

/-- `op = w[2:0]` (R81). -/
def opField (w : Nat) : Nat := w % 2 ^ Config.opWidth

/-- `t = w[P_IW+2:3]`, unsigned, not scaled and not relative (R81). -/
def tgtField (piw : Nat) (w : Nat) : Nat := w / 2 ^ Config.opWidth % 2 ^ piw

/-- The opcode that the `op` field selects (R82), with the target field, which the six opcodes without a
payload ignore (R84). The last arm is code 7: `opField` is below 8. -/
def selectOp (op t : Nat) : Instr :=
  match op with
  | 0 => .inc
  | 1 => .dec
  | 2 => .next
  | 3 => .prev
  | 4 => .input
  | 5 => .output
  | 6 => .loopForward t
  | _ => .loopBack t

/-- `decode(w) = (opcode named by w[2:0], w[P_IW+2:3])`, total on words (R83). -/
def decodeWord (piw : Nat) (w : Nat) : Instr := selectOp (opField w) (tgtField piw w)

/-- The decoder on any number: a word of `P_IW + 3` bits decodes, a wider number is rejected by name. -/
def decode (piw : Nat) (w : Nat) : Except DecodeError Instr :=
  if w < 2 ^ Config.wordWidth piw then .ok (decodeWord piw w) else .error .wordTooWide

/-- The instruction the decoder reads from a table word: bit 0 is the word's bit 0, and bits from `nbits`
up are 0. The index width is the spec's example value (assumption log 1). A word is fetched whole, so no
byte order enters (20_memory.md R54). -/
def decodeTableWord (nbits w : Nat) : Option Instr :=
  match decode Config.examplePiw (w % 2 ^ nbits) with
  | .ok i => some i
  | .error _ => none

/-- The word `{tgt, op}` of an instruction: the target in the high bits, 0 there for the six opcodes
without a payload (R102). -/
def encode (i : Instr) : Nat := i.target * 2 ^ Config.opWidth + i.opCode

end Sys2Proof
end

