-- ==== Sys2Proof/Machine/State.lean ====
section
/-! DEFINITION. The state of the block as plain data, its reset value, and the reasons a step can stop.

10_state.md R20 gives the block four state elements: tape, `dp`, `ip`, `status`. Beside them State holds
what a step reads and the block does not own: the program and `P_IW` (configuration, R36, R6), the reset
input (20_memory.md R59), and the two collaborators' answers and streams (R58, R63). -/

namespace Sys2Proof.Machine

/-- The tape's contents: (index, byte) pairs, indices strictly rising, no byte equal to what an unlisted
index reads as (`Memory.wf` in Machine/Ops.lean). -/
abbrev Memory := List Host.Cell

/-- The run-status register, 2 bits, every value legal (10_state.md R32). -/
inductive Status where
  | running
  | done
  | outputFailure
  | inputFailure
  deriving DecidableEq, Repr

/-- The answers of the input collaborator (20_memory.md R58). -/
inductive InAnswer where
  | byte (b : Byte)
  | exhausted
  | error
  deriving DecidableEq, Repr

/-- The answers of the output collaborator (20_memory.md R58). -/
inductive OutAnswer where
  | accepted
  | rejected
  deriving DecidableEq, Repr

/-- The two exceptions of the block (60_exceptions.md R180). -/
inductive ExecError where
  | outputFailure
  | inputFailure
  deriving DecidableEq, Repr

/-- The whole state. -/
structure State where
  /-- `P_IW`, the index width: the open parameter (R6). Nothing writes it.
  DESIGN CHOICE (assumption log 1). -/
  piw : Nat
  /-- Program memory words 0..N−1; `N` is its length (R36, R52). DESIGN CHOICE (assumption
  log 2, 3). -/
  prog : List Nat
  /-- The reset input: while true the block is held in reset (R59, R210). DESIGN CHOICE
  (assumption log 9). -/
  rst : Bool
  /-- The tape (R22). -/
  tape : Memory
  /-- The data pointer, 15 bits (R24). DEDUCED (assumption log 10). -/
  dp : BitVec 15
  /-- The instruction pointer, `P_IW` bits (R26). DESIGN CHOICE (assumption log 2). -/
  ip : Nat
  /-- The run status (R32). -/
  status : Status
  /-- The answers to the In requests not yet answered, in order; empty: no answer is there (R58, U4).
  DESIGN CHOICE (assumption log 4). -/
  inAnswers : List InAnswer
  /-- The answers to the Out offers not yet answered, in order; empty: no answer is there (R58, U4).
  DESIGN CHOICE (assumption log 4). -/
  outAnswers : List OutAnswer
  /-- The bytes consumed from the input stream so far, in order (R57, R63). DESIGN CHOICE (assumption
  log 5). -/
  consumed : List Byte
  /-- The bytes delivered to the output stream so far, in order (R57, R63). DESIGN CHOICE (assumption
  log 5). -/
  delivered : List Byte
  deriving DecidableEq, Repr

/-- Why the machine stops with a fault. The two exceptions of the block are not here: taking one is a next
state (60_exceptions.md R181). -/
inductive Fault where
  /-- Raised by every instruction when `dp` is in 30000..32767, where there is no cell. No rule reaches
  such a `dp` (10_state.md R24); a model faults there (U11). Safe. -/
  | dpOutOfRange
  deriving DecidableEq, Repr

/-- Why the machine gives no next state. -/
inductive Refusal where
  /-- Raised by an arm of `exec` whose instruction has no meaning yet. No arm is such. Safe. -/
  | notModelled (mnemonic : String)
  /-- Raised by `step` when the number listed at `ip` is no word of `P_IW + 3` bits: no program memory of
  the hardware holds one. Safe. -/
  | wordTooWide
  /-- Raised by the host's load for an image longer than `2^P_IW − 1` words (U10, D3). Safe. -/
  | imageTooLong
  /-- Raised by the host's load for an image that breaks 30_encoding.md R95 (R93, D11). Safe. -/
  | malformedImage
  /-- Raised by the host's load or connect while a run is on: reset released and `status` RUNNING (R36,
  R212; 70_reset_and_hazards.md R219). Safe. -/
  | duringRun
  /-- Raised by a port answer while no request waits for one (70_reset_and_hazards.md R219, D12). Safe. -/
  | noRequest
  deriving DecidableEq, Repr

/-- What a step or an instruction answers. -/
abbrev Result := Host.Outcome State Fault Refusal

/-- The state right after reset at index width `piw`: every element as 70_reset_and_hazards.md R210 says,
no program loaded, no collaborator answer given. -/
def State.resetFor (piw : Nat) : State :=
  { piw := piw
    prog := []
    rst := false
    tape := []
    dp := 0
    ip := 0
    status := .running
    inAnswers := []
    outAnswers := []
    consumed := []
    delivered := [] }

/-- The machine right after reset (R210), at the spec's example index width (assumption log 1). -/
def State.reset : State := State.resetFor Config.examplePiw

/-- What the block does next, before any instruction's meaning is looked at (30_encoding.md R88, R91). -/
inductive Phase where
  /-- Reset is asserted: the block holds its reset values (R210). -/
  | held
  /-- `status` is not RUNNING: no further step is taken (R33). -/
  | stopped
  /-- `ip >= N`: normal completion, no fetch (R91). -/
  | terminal
  /-- The word at `ip` decodes to this instruction (R91). -/
  | run (i : Instr)
  /-- The number at `ip` is no word of the hardware. -/
  | badWord
  deriving DecidableEq, Repr

end Sys2Proof.Machine
end

