-- ==== Sys2Proof/Machine/Ops.lean ====
section
/-! DEFINITION. The named operations over the tape, the pointers and the status register; taking an
exception; holding reset. -/

namespace Sys2Proof.Machine

/-- What a tape cell that no entry lists reads as: 0, the reset contents of every cell (10_state.md R23). -/
def Memory.unlisted : Byte := 0

/-- `tape[a]` (00_scope.md R9). -/
def Memory.read : Memory → Nat → Byte
  | [], _ => Memory.unlisted
  | (b, w) :: m, a => if b = a then w else Memory.read m a

/-- `tape[a] <- v` (00_scope.md R9), keeping the canonical form: the entry of `a` is put in its place, and
taken out when `v` is what an unlisted cell reads as. -/
def Memory.write : Memory → Nat → Byte → Memory
  | [], a, v => if v = Memory.unlisted then [] else [(a, v)]
  | (b, w) :: m, a, v =>
    if b < a then (b, w) :: Memory.write m a v
    else
      let rest := if b = a then m else (b, w) :: m
      if v = Memory.unlisted then rest else (a, v) :: rest

/-- The canonical form from index `lo` up: indices at least `lo`, strictly rising, below `TAPE_LEN`, and no
entry equal to what an unlisted cell reads as. -/
def Memory.wfFrom (lo : Nat) : Memory → Bool
  | [] => true
  | (a, v) :: m =>
    decide (lo ≤ a) && decide (a < Config.tapeLen) && decide (v ≠ Memory.unlisted)
      && Memory.wfFrom (a + 1) m

/-- The tape is in canonical form and lists only cells that exist (R22). -/
def Memory.wf (m : Memory) : Bool := Memory.wfFrom 0 m

/-- `N`, the program length (R36). -/
def State.progLen (s : State) : Nat := s.prog.length

/-- The only tape index an opcode uses: `dp` (20_memory.md R51). -/
def State.cellAddr (s : State) : Nat := s.dp.toNat

/-- `tape[dp]`. -/
def State.readCell (s : State) : Byte := s.tape.read s.cellAddr

/-- `tape[dp] <- v`. -/
def State.writeCell (s : State) (v : Byte) : State :=
  { s with tape := s.tape.write s.cellAddr v }

/-- `dp <- d mod 30000` (R130, R131). -/
def State.setDp (s : State) (d : Nat) : State :=
  { s with dp := BitVec.ofNat 15 (d % Config.tapeLen) }

/-- `ip <- n`, the one place that writes `ip` outside reset: the register has `P_IW` bits (R26). In a
well-formed program no value is cut (R29); for other images 30_encoding.md R93 says that the value wraps. -/
def State.setIp (s : State) (n : Nat) : State :=
  { s with ip := n % 2 ^ s.piw }

/-- The incrementer path of the ip multiplexer: `ip <- ip + 1` (R28). -/
def State.advance (s : State) : State := s.setIp (s.ip + 1)

/-- The jump-target path of the ip multiplexer: `ip <- t + 1` (R28). -/
def State.jumpPast (s : State) (t : Nat) : State := s.setIp (t + 1)

/-- The value an exception leaves in `status` (60_exceptions.md R180). -/
def ExecError.status : ExecError → Status
  | .outputFailure => .outputFailure
  | .inputFailure => .inputFailure

/-- Taking an exception: `status` gets the exception's code, and the faulting step writes nothing else
(60_exceptions.md R181). There is no handler and no return; only reset starts again (R183). -/
def State.raise (s : State) (e : ExecError) : State :=
  { s with status := e.status }

/-- Normal completion: the terminal check found `ip >= N` (30_encoding.md R91). -/
def State.complete (s : State) : State :=
  { s with status := .done }

/-- The block while reset is asserted, and at its release: the four state elements at their reset values
(70_reset_and_hazards.md R210). The program, `P_IW`, the reset input and the collaborators' side of the
ports are not the block's to write. -/
def State.hold (s : State) : State :=
  { s with tape := [], dp := 0, ip := 0, status := .running }

/-- The 2-bit code of a status (10_state.md R32). -/
def Status.code : Status → BitVec 2
  | .running => 0b00
  | .done => 0b01
  | .outputFailure => 0b10
  | .inputFailure => 0b11

end Sys2Proof.Machine
end

