-- ==== Sys2Proof/Machine/Ports.lean ====
section
/-! DEFINITION. The two port transactions `InPort()` and `OutPort(b)` (00_scope.md R9; 20_memory.md R57,
R58). Each takes one answer from the collaborator's list; while the list is empty the port has not
answered, and the transaction waits (10_state.md R35). -/

namespace Sys2Proof.Machine

/-- `InPort()`: the answer and the state after the transaction, or none while the port has not answered. An
answer `Byte(b)` consumes `b` from the input stream; `Exhausted` and `Error` consume nothing (R57). -/
def State.inPort (s : State) : Option (InAnswer × State) :=
  match s.inAnswers with
  | [] => none
  | .byte b :: rest =>
    some (.byte b, { s with inAnswers := rest, consumed := s.consumed ++ [b] })
  | .exhausted :: rest => some (.exhausted, { s with inAnswers := rest })
  | .error :: rest => some (.error, { s with inAnswers := rest })

/-- `OutPort(b)`: the answer and the state after the transaction, or none while the port has not answered.
`Accepted` adds `b` to the output stream; `Rejected` delivers nothing (R57). -/
def State.outPort (s : State) (b : Byte) : Option (OutAnswer × State) :=
  match s.outAnswers with
  | [] => none
  | .accepted :: rest =>
    some (.accepted, { s with outAnswers := rest, delivered := s.delivered ++ [b] })
  | .rejected :: rest => some (.rejected, { s with outAnswers := rest })

end Sys2Proof.Machine
end

