-- ==== Sys2Proof/Machine/Operands.lean ====
section
/-! DEFINITION. The operand forms: the data pointer, and the implicit cell `tape[dp]` that is the only
operand of every data opcode (10_state.md R21; 20_memory.md R51). -/

namespace Sys2Proof.Machine

/-- Run `k` when `dp` names a cell. In 30000..32767, which no rule reaches, fault (R24, U11). -/
def withDp (s : State) (k : Nat → Result) : Result :=
  if s.cellAddr < Config.tapeLen then k s.cellAddr else .fault .dpOutOfRange

/-- Run `k` on `c = tape[dp]`, read at the start of the step (30_encoding.md R89, R91). -/
def withCell (s : State) (k : Byte → Result) : Result :=
  withDp s fun a => k (s.tape.read a)

/-- `EOF_POLICY`, fixed to `Zero` for this hardware (00_scope.md R6; 42_io.md R140; D8). -/
def eofPolicy : EofPolicy := .zero

/-- What In writes when the input is exhausted, from the cell's value before (R140). -/
def eofCell (c : Byte) : Byte :=
  match eofPolicy with
  | .zero => 0
  | .unchanged => c

end Sys2Proof.Machine
end

