-- ==== Sys2Proof/Machine/CellArith.lean ====
section
/-! DEFINITION. Cell arithmetic: Inc and Dec (40_cell_arith.md R120, R121). Modulo 256, never a fault. -/

namespace Sys2Proof.Machine

/-- `(c + k) mod 256` on exact numbers, as R120 and R121 write it. -/
def addCell (c : Byte) (k : Nat) : Byte := BitVec.ofNat 8 ((c.toNat + k) % 256)

/-- R120: `tape[dp] <- (c + 1) mod 256`; `ip <- ip + 1`. -/
def execInc (s : State) : Result :=
  withCell s fun c => .next (s.writeCell (addCell c 1)).advance

/-- R121: `tape[dp] <- (c + 255) mod 256`; `ip <- ip + 1`. -/
def execDec (s : State) : Result :=
  withCell s fun c => .next (s.writeCell (addCell c 255)).advance

end Sys2Proof.Machine
end

