-- ==== Sys2Proof/Machine/DataPointer.lean ====
section
/-! DEFINITION. Data-pointer movement: Next and Prev (41_data_pointer.md R130, R131). Modulo 30000, never a
fault; no cell is read or written. -/

namespace Sys2Proof.Machine

/-- R130: `dp <- (dp + 1) mod 30000`; `ip <- ip + 1`. -/
def execNext (s : State) : Result :=
  withDp s fun d => .next (s.setDp (d + 1)).advance

/-- R131: `dp <- (dp - 1 + 30000) mod 30000`; `ip <- ip + 1`. The sum is written `30000 - 1 + dp`, so that no
difference of natural numbers falls below 0 (30_encoding.md R87 writes it `dp + 29999`). -/
def execPrev (s : State) : Result :=
  withDp s fun d => .next (s.setDp (Config.tapeLen - 1 + d)).advance

end Sys2Proof.Machine
end

