-- ==== Sys2Proof/Machine/Io.lean ====
section
/-! DEFINITION. I/O: In and Out (42_io.md R140, R141). The only opcodes that wait and the only ones that
raise an exception (R142). A wait leaves the state as it is, the step not completed (10_state.md R35). -/

namespace Sys2Proof.Machine

/-- R140. `Byte(b)`: `tape[dp] <- b`, `ip <- ip + 1`. `Exhausted`: `tape[dp] <- 0`, `ip <- ip + 1`.
`Error`: InputFailure, with tape, `dp` and `ip` unchanged. No answer: wait. -/
def execIn (s : State) : Result :=
  withCell s fun c =>
    match s.inPort with
    | none => .next s
    | some (.byte b, s') => .next (s'.writeCell b).advance
    | some (.exhausted, s') => .next (s'.writeCell (eofCell c)).advance
    | some (.error, s') => .next (s'.raise .inputFailure)

/-- R141. The byte offered is `c`. `Accepted`: `ip <- ip + 1`. `Rejected`: OutputFailure, with tape, `dp`
and `ip` unchanged and the byte not delivered. No answer: wait. -/
def execOut (s : State) : Result :=
  withCell s fun c =>
    match s.outPort c with
    | none => .next s
    | some (.accepted, s') => .next s'.advance
    | some (.rejected, s') => .next (s'.raise .outputFailure)

end Sys2Proof.Machine
end

