-- ==== Sys2Proof/Machine/Flags.lean ====
section
/-! DEFINITION. The block has no flags (10_state.md R31). The one condition is the zero test of the loop
opcodes, combinational and stored nowhere. -/

namespace Sys2Proof.Machine

/-- `tape[dp] == 0` on the cell's value (R31, R160, R161). -/
def cellIsZero (c : Byte) : Bool := c == 0

end Sys2Proof.Machine
end

