-- ==== Sys2Proof/Machine/LoopControl.lean ====
section
/-! DEFINITION. Loop control: LoopForward and LoopBack (43_loop_control.md R160, R161), the only control
transfers (R164). -/

namespace Sys2Proof.Machine

/-- R160: `if c == 0 : ip <- t + 1 else : ip <- ip + 1`. -/
def execLoopForward (t : Nat) (s : State) : Result :=
  withCell s fun c => .next (if cellIsZero c then s.jumpPast t else s.advance)

/-- R161: `if c != 0 : ip <- t + 1 else : ip <- ip + 1`. -/
def execLoopBack (t : Nat) (s : State) : Result :=
  withCell s fun c => .next (if cellIsZero c then s.advance else s.jumpPast t)

end Sys2Proof.Machine
end

