-- ==== Sys2Proof/Machine/Dispatch.lean ====
section
/-! DEFINITION. The dispatch: one arm per opcode (30_encoding.md R82). -/

namespace Sys2Proof.Machine

def exec (i : Instr) (s : State) : Host.Outcome State Fault Refusal :=
  match i with
  | .inc => Sys2Proof.Machine.execInc s
  | .dec => Sys2Proof.Machine.execDec s
  | .next => Sys2Proof.Machine.execNext s
  | .prev => Sys2Proof.Machine.execPrev s
  | .input => Sys2Proof.Machine.execIn s
  | .output => Sys2Proof.Machine.execOut s
  | .loopForward t => Sys2Proof.Machine.execLoopForward t s
  | .loopBack t => Sys2Proof.Machine.execLoopBack t s

end Sys2Proof.Machine
end

