-- ==== Sys2Proof/Machine/Fetch.lean ====
section
/-! DEFINITION. The step cycle up to the instruction's meaning: reset, the stopped block, the terminal check
and the fetch, in that order (30_encoding.md R88, R91; 60_exceptions.md R185), and placing a word where the
next fetch reads. -/

namespace Sys2Proof.Machine

/-- `ProgRead(ip)` behind the terminal check: the word at `ip`, or none when `ip >= N` (R52, R91). -/
def State.fetch (s : State) : Option Nat := s.prog[s.ip]?

/-- The terminal check, then the fetch and the decoder (R91). -/
def State.fetchPhase (s : State) : Phase :=
  match s.fetch with
  | none => .terminal
  | some w =>
    match decode s.piw w with
    | .ok i => .run i
    | .error _ => .badWord

/-- What the block does next: reset before everything (R185), no step once `status` is not RUNNING (R33),
else the step cycle (R88). -/
def State.phase (s : State) : Phase :=
  if s.rst then .held
  else
    match s.status with
    | .running => s.fetchPhase
    | .done | .outputFailure | .inputFailure => .stopped

/-- The program with word `w` at index `i`; indices below `i` that no word holds get the word 0, an Inc. -/
def placeWord (prog : List Nat) (i : Nat) (w : Nat) : List Nat :=
  prog.take i ++ List.replicate (i - prog.length) 0 ++ w :: prog.drop (i + 1)

end Sys2Proof.Machine
end

