-- ==== Sys2Proof/Machine/Step.lean ====
section
/-! DEFINITION. One step of the machine (00_scope.md R10; 30_encoding.md R88, R91). -/

namespace Sys2Proof.Machine

/-- One step. While reset is asserted the block holds its reset values (R210). Once `status` is not RUNNING
the block takes no further step, and the state stays (R33). With `ip >= N` the run completes (R91). Else the
decoded opcode is executed. -/
def step (s : State) : Host.Outcome State Fault Refusal :=
  match s.phase with
  | .held => .next s.hold
  | .stopped => .next s
  | .terminal => .next s.complete
  | .run i => exec i s
  | .badWord => .refused .wordTooWide

/-- `s` with the word `w` (its low `nbits` bits) at `ip` in program memory, reset released and the block
RUNNING: the very next step fetches and executes exactly it. It stands for the host's load (assumption
log 7). -/
def State.withFetchWord (s : State) (nbits w : Nat) : State :=
  { s with
    rst := false
    status := .running
    prog := placeWord s.prog s.ip (w % 2 ^ nbits) }

end Sys2Proof.Machine
end

