-- ==== Sys2Proof/Machine/Control.lean ====
section
/-! DEFINITION. The datapath of 00_scope.md R3 a second time, from the other end: the decoder's control
outputs (30_encoding.md R87), the wrap comparators of 41_data_pointer.md, and the ip multiplexer of
10_state.md R28. `exec` does not use this file; that the two agree is a statement. -/

namespace Sys2Proof.Machine

/-- Column "tape write" of R87. -/
inductive CellWrite where
  | none
  | plusOne
  | minusOne
  | inputByte
  deriving DecidableEq, Repr

/-- Column "dp next" of R87. -/
inductive DpNext where
  | keep
  | up
  | down
  deriving DecidableEq, Repr

/-- Column "ip path" of R87. -/
inductive IpPath where
  | increment
  | jumpIfZero
  | jumpIfNonzero
  deriving DecidableEq, Repr

/-- Column "port" of R87. -/
inductive PortUse where
  | none
  | input
  | output
  deriving DecidableEq, Repr

/-- The decoder's control outputs for one opcode. -/
structure Control where
  cell : CellWrite
  dp : DpNext
  ip : IpPath
  port : PortUse
  deriving DecidableEq, Repr

/-- The table of R87, row by row. -/
def controlOf : Instr → Control
  | .inc => ⟨.plusOne, .keep, .increment, .none⟩
  | .dec => ⟨.minusOne, .keep, .increment, .none⟩
  | .next => ⟨.none, .up, .increment, .none⟩
  | .prev => ⟨.none, .down, .increment, .none⟩
  | .input => ⟨.inputByte, .keep, .increment, .input⟩
  | .output => ⟨.none, .keep, .increment, .output⟩
  | .loopForward _ => ⟨.none, .keep, .jumpIfZero, .none⟩
  | .loopBack _ => ⟨.none, .keep, .jumpIfNonzero, .none⟩

/-- `next_dp` and `prev_dp`: the wrap is a compare against 29999 or 0 (41_data_pointer.md). -/
def muxDp (k : DpNext) (d : BitVec 15) : BitVec 15 :=
  match k with
  | .keep => d
  | .up => if d = 29999 then 0 else d + 1
  | .down => if d = 0 then 29999 else d - 1

/-- The next-value multiplexer of `ip` (R28), before the register's width. -/
def muxIp (k : IpPath) (c : Byte) (ip t : Nat) : Nat :=
  match k with
  | .increment => ip + 1
  | .jumpIfZero => if c = 0 then t + 1 else ip + 1
  | .jumpIfNonzero => if c ≠ 0 then t + 1 else ip + 1

/-- The cell after the step, from the cell before and the byte the input port gave. -/
def muxCell (k : CellWrite) (c b : Byte) : Byte :=
  match k with
  | .none => c
  | .plusOne => c + 1
  | .minusOne => c - 1
  | .inputByte => b

/-- The writes of a step that completes: `c` is the cell before, `b` the input byte, `t` the target. -/
def State.commit (s : State) (k : Control) (t : Nat) (c b : Byte) : State :=
  { s with
    tape := if k.cell = .none then s.tape else s.tape.write s.dp.toNat (muxCell k.cell c b)
    dp := muxDp k.dp s.dp
    ip := muxIp k.ip c s.ip t % 2 ^ s.piw }

/-- One opcode by its control outputs: the port transaction if there is one, then the writes, which a
failing or waiting transaction holds back. -/
def runControl (k : Control) (t : Nat) (s : State) : Result :=
  if s.dp < 30000 then
    match k.port with
    | .none => .next (s.commit k t s.readCell 0)
    | .input =>
      match s.inAnswers with
      | [] => .next s
      | .byte b :: r =>
        .next { s.commit k t s.readCell b with inAnswers := r, consumed := s.consumed ++ [b] }
      | .exhausted :: r => .next { s.commit k t s.readCell 0 with inAnswers := r }
      | .error :: r => .next { s with inAnswers := r, status := .inputFailure }
    | .output =>
      match s.outAnswers with
      | [] => .next s
      | .accepted :: r =>
        .next { s.commit k t s.readCell 0 with
                outAnswers := r, delivered := s.delivered ++ [s.readCell] }
      | .rejected :: r => .next { s with outAnswers := r, status := .outputFailure }
  else .fault .dpOutOfRange

end Sys2Proof.Machine
end

