-- ==== Sys2Proof/Machine/Image.lean ====
section
/-! DEFINITION. Well-formed program images (30_encoding.md R92, R94, R95). The block does not check them; the
host's load does (R93, D11). -/

namespace Sys2Proof.Machine

/-- `open(i)`: the number of LoopForward minus the number of LoopBack among `opc(0..i−1)` (R95 item 2). -/
def openCount (p : List Instr) (i : Nat) : Int :=
  ((p.take i).countP Instr.isLoopForward : Int) - ((p.take i).countP Instr.isLoopBack : Int)

/-- `opc(i) = LoopForward` (R94). -/
def isForwardAt (p : List Instr) (i : Nat) : Bool := p[i]?.any Instr.isLoopForward

/-- `opc(i) = LoopBack` (R94). -/
def isBackAt (p : List Instr) (i : Nat) : Bool := p[i]?.any Instr.isLoopBack

/-- `tgt(i)` (R94). -/
def targetAt (p : List Instr) (i : Nat) : Option Nat := p[i]?.map Instr.target

/-- The least index `j > i` with `open(j+1) = open(i)` and `opc(j) = LoopBack` (R95 item 3). -/
def matchingBack (p : List Instr) (i : Nat) : Option Nat :=
  (List.range p.length).find? fun j =>
    decide (i < j) && decide (openCount p (j + 1) = openCount p i) && isBackAt p j

/-- R95 item 2: no LoopBack without its LoopForward before it, and none left open at the end. -/
def isBalanced (p : List Instr) : Bool :=
  (List.range (p.length + 1)).all (fun i => decide (0 ≤ openCount p i))
    && decide (openCount p p.length = 0)

/-- R95 item 3 for every LoopForward: its match exists, and the two targets name each other. -/
def forwardsResolved (p : List Instr) : Bool :=
  (List.range p.length).all fun i =>
    !isForwardAt p i ||
      (match matchingBack p i with
       | some j => targetAt p i == some j && targetAt p j == some i
       | none => false)

/-- R95 item 4: every LoopBack is the match of exactly one LoopForward. -/
def backsMatchedOnce (p : List Instr) : Bool :=
  (List.range p.length).all fun j =>
    !isBackAt p j ||
      (List.range p.length).countP (fun i => isForwardAt p i && matchingBack p i == some j) == 1

/-- R95 for the decoded program at index width `piw`. -/
def programWf (piw : Nat) (p : List Instr) : Bool :=
  decide (p.length ≤ Config.maxProgLen piw)
    && isBalanced p && forwardsResolved p && backsMatchedOnce p

/-- The decoded program (R94). -/
def decodeProgram (piw : Nat) (ws : List Nat) : List Instr := ws.map (decodeWord piw)

/-- The image is one the hardware can hold, every word in `P_IW + 3` bits (R52), and well-formed (R95). -/
def imageWf (piw : Nat) (ws : List Nat) : Bool :=
  ws.all (fun w => decide (w < 2 ^ Config.wordWidth piw)) && programWf piw (decodeProgram piw ws)

end Sys2Proof.Machine
end

