-- ==== Sys2Proof/Machine/HostInterface.lean ====
section
/-! DEFINITION. The outside of the block: the host's actions (70_reset_and_hazards.md R212, R219), the
signal-level ports (20_memory.md R59), and what the host may observe (R182, R214, R215). -/

namespace Sys2Proof.Machine

/-- What the host and the collaborators can do between two steps (R219). Reading `status` changes nothing
and is `observe`. -/
inductive HostAction where
  /-- Write a program image and its length into program memory (R212 item 2). -/
  | load (ws : List Nat)
  /-- Connect an input source and an output sink: fresh streams (R212 item 3). -/
  | connect
  /-- Assert `rst`. -/
  | assertReset
  /-- Release `rst`. -/
  | releaseReset
  /-- The input collaborator answers the In request that waits (R58). -/
  | answerInput (a : InAnswer)
  /-- The output collaborator answers the Out offer that waits (R58). -/
  | answerOutput (a : OutAnswer)
  deriving DecidableEq, Repr

/-- A run is on: reset is released and `status` is RUNNING (70_reset_and_hazards.md R212, R214). -/
def State.inRun (s : State) : Bool := !s.rst && decide (s.status = .running)

/-- The state with its four elements at their reset values when reset is asserted (R210). -/
def State.settled (s : State) : State := if s.rst then s.hold else s

/-- An In transaction waits: the block executes an In and the port has not answered (R35). DESIGN CHOICE
(assumption log 16). -/
def State.inReq (s : State) : Bool := decide (s.phase = .run .input) && s.inAnswers.isEmpty

/-- An Out transaction waits (R35). DESIGN CHOICE (assumption log 16). -/
def State.outReq (s : State) : Bool := decide (s.phase = .run .output) && s.outAnswers.isEmpty

/-- The load: not during a run (R36, R212 item 2, R219), none longer than the block supports (U10), and only
a well-formed image (R93, D11). Under reset the block holds its reset values; in a stopped block nothing but
the program changes, so the final tape, `dp` and `ip` stay in place (R215). Assumption log 15. -/
def loadImage (ws : List Nat) (s : State) : Result :=
  if s.inRun then .refused .duringRun
  else if Config.maxProgLen s.piw < ws.length then .refused .imageTooLong
  else if imageWf s.piw ws then .next { s.settled with prog := ws }
  else .refused .malformedImage

/-- Connecting the collaborators, not during a run (R212 item 3): no answer is given yet and both streams
begin. Assumption log 5, 15. -/
def connectPorts (s : State) : Result :=
  if s.inRun then .refused .duringRun
  else .next { s with inAnswers := [], outAnswers := [], consumed := [], delivered := [] }

/-- The input collaborator answers: only a request that waits, and the answer ends the wait, for the step
completes with it and the request falls (20_memory.md R58, R59). So no request is answered twice (R219, D12). -/
def answerIn (a : InAnswer) (s : State) : Result :=
  if s.inReq then step { s with inAnswers := [a] } else .refused .noRequest

/-- The output collaborator answers: only an offer that waits, and the step completes with the answer
(R58, R59, R219, D12). -/
def answerOut (a : OutAnswer) (s : State) : Result :=
  if s.outReq then step { s with outAnswers := [a] } else .refused .noRequest

/-- One action of the host or of a collaborator. -/
def hostAct (a : HostAction) (s : State) : Result :=
  match a with
  | .load ws => loadImage ws s
  | .connect => connectPorts s
  | .assertReset => .next { s.hold with rst := true }
  | .releaseReset => .next { s.settled with rst := false }
  | .answerInput r => answerIn r s
  | .answerOutput r => answerOut r s

/-- The output pins of R59. `outData` is the offered byte while `outReq` is 1; the spec gives the pin no
value at other times. -/
structure OutPins where
  pmAddr : Nat
  inReq : Bool
  outReq : Bool
  outData : Option Byte
  status : BitVec 2
  deriving DecidableEq, Repr

/-- The output pins as a view of the state (R59). -/
def State.outPins (s : State) : OutPins :=
  { pmAddr := s.ip
    inReq := s.inReq
    outReq := s.outReq
    outData := if s.outReq then some s.readCell else none
    status := s.status.code }

/-- The answer that `in_kind` and `in_data` carry with `in_ack`: 0b11 is reserved and read as Error (R59,
D18). -/
def InAnswer.ofPins (kind : BitVec 2) (data : Byte) : InAnswer :=
  if kind = 0b00 then .byte data
  else if kind = 0b01 then .exhausted
  else .error

/-- The answer that `out_reject` carries with `out_ack` (R59). -/
def OutAnswer.ofPins (reject : Bool) : OutAnswer :=
  if reject then .rejected else .accepted

/-- What the host may rely on (R214, R215, R182, R194): the status and the delivered bytes always; the
consumed bytes, tape, `dp` and `ip` after DONE only. -/
inductive Observation where
  | running (delivered : List Byte)
  | done (delivered consumed : List Byte) (tape : Memory) (dp : BitVec 15) (ip : Nat)
  | outputFailure (delivered : List Byte)
  | inputFailure (delivered : List Byte)
  deriving DecidableEq, Repr

/-- What the host observes of the block. -/
def State.observe (s : State) : Observation :=
  match s.status with
  | .running => .running s.delivered
  | .done => .done s.delivered s.consumed s.tape s.dp s.ip
  | .outputFailure => .outputFailure s.delivered
  | .inputFailure => .inputFailure s.delivered

end Sys2Proof.Machine
end

