-- ==== Sys2Proof/Machine/Translator.lean ====
section
/-! DEFINITION. The translator of 30_encoding.md section 7 (R96 to R102). It is outside the hardware
(00_scope.md R5); it is here as the assembler that defines the images the hardware is specified for. -/

namespace Sys2Proof.Machine

/-- Why a translation fails (R99, R100). Positions are opcode indices (90_conflicts.md C4). -/
inductive TranslateError where
  /-- A LoopBack met with no open loop, at this opcode index. -/
  | unmatchedLoopEnd (position : Nat)
  /-- LoopForwards left open after the whole input, innermost first. -/
  | unmatchedLoopStart (positions : List Nat)
  deriving DecidableEq, Repr

/-- The opcode of a significant character; every other character is a comment (R96, R97). The target of a
loop opcode is filled in by `resolve`. -/
def opcodeOf (ch : Char) : Option Instr :=
  if ch = '+' then some .inc
  else if ch = '-' then some .dec
  else if ch = '>' then some .next
  else if ch = '<' then some .prev
  else if ch = ',' then some .input
  else if ch = '.' then some .output
  else if ch = '[' then some (.loopForward 0)
  else if ch = ']' then some (.loopBack 0)
  else none

/-- The emitted opcodes in source order (R97). -/
def emit (src : List Char) : List Instr := src.filterMap opcodeOf

/-- Loop resolution (R98): scan the opcodes left, with what is emitted so far and the stack of open-loop
positions. At a LoopForward push its index; at a LoopBack pop, and set both targets. -/
def resolve : List Instr → List Instr → List Nat → Except TranslateError (List Instr)
  | [], out, stack =>
    match stack with
    | [] => .ok out
    | i :: st => .error (.unmatchedLoopStart (i :: st))
  | op :: rest, out, stack =>
    match op with
    | .loopForward t => resolve rest (out ++ [.loopForward t]) (out.length :: stack)
    | .loopBack _ =>
      match stack with
      | [] => .error (.unmatchedLoopEnd out.length)
      | i :: st => resolve rest (out.set i (.loopForward out.length) ++ [.loopBack i]) st
    | .inc => resolve rest (out ++ [.inc]) stack
    | .dec => resolve rest (out ++ [.dec]) stack
    | .next => resolve rest (out ++ [.next]) stack
    | .prev => resolve rest (out ++ [.prev]) stack
    | .input => resolve rest (out ++ [.input]) stack
    | .output => resolve rest (out ++ [.output]) stack

/-- Translation, a pure function of the text (R101). -/
def translateSource (src : List Char) : Except TranslateError (List Instr) := resolve (emit src) [] []

/-- The program image of a translated program: each word is the target and the code (R102). -/
def assemble (src : List Char) : Except TranslateError (List Nat) :=
  match translateSource src with
  | .ok p => .ok (p.map encode)
  | .error e => .error e

end Sys2Proof.Machine
end

