-- ==== Sys2Proof/Safety.lean ====
section
/-! DEFINITION. The terms statements use: the machine's invariant, when an opcode executes, and runs of
steps, opcodes and host actions. -/

namespace Sys2Proof.Machine

/-- The invariant of a block whose program was loaded well-formed: the index width is at least 1 (R6), the
image is well-formed (R95), `ip` is in 0..N while RUNNING (R26), `dp` in 0..29999 (R24), the tape lists only
cells that exist in its canonical form (R22), and `ip` fits its register (R26). Once the run has ended the
host may load the next program, of another length, and `ip` stays at the end of the last one (R212, R215). -/
abbrev State.Inv (s : State) : Prop :=
  1 ≤ s.piw ∧ imageWf s.piw s.prog = true ∧ (s.status = .running → s.ip ≤ s.progLen) ∧
    s.cellAddr < Config.tapeLen ∧ s.tape.wf = true ∧ s.ip ≤ Config.maxProgLen s.piw

/-- The block executes the opcode at `ip`: `ip < N`, the program is no longer than the block supports
(R26, R95 item 1), and `dp` names a cell (R24). -/
abbrev State.Executing (s : State) : Prop :=
  s.ip < s.progLen ∧ s.progLen ≤ Config.maxProgLen s.piw ∧ s.cellAddr < Config.tapeLen

/-- The block is at index `ip` of a run: reset released and RUNNING. -/
abbrev State.Active (s : State) : Prop := s.rst = false ∧ s.status = .running

/-- The bytes that a list of input answers takes from the input stream (20_memory.md R57). -/
def bytesOf : List InAnswer → List Byte
  | [] => []
  | .byte b :: r => b :: bytesOf r
  | .exhausted :: r => bytesOf r
  | .error :: r => bytesOf r

/-- How many offers a list of output answers accepts (20_memory.md R57). -/
def acceptedCount : List OutAnswer → Nat
  | [] => 0
  | .accepted :: r => acceptedCount r + 1
  | .rejected :: r => acceptedCount r

/-- The meaning of `i` executed `k` times in a row. -/
def execTimes (i : Instr) : Nat → State → Result
  | 0, s => .next s
  | k + 1, s =>
    match exec i s with
    | .next s' => execTimes i k s'
    | .fault r => .fault r
    | .refused r => .refused r

/-- One thing that happens: a step of the block, or an action from outside. -/
inductive Event where
  | step
  | host (a : HostAction)
  deriving DecidableEq, Repr

/-- No answer is there that no request asked for: every answer given so far has ended its transaction
(70_reset_and_hazards.md R219, D12). -/
abbrev State.NothingUnasked (s : State) : Prop := s.inAnswers = [] ∧ s.outAnswers = []

/-- One event. -/
def Event.run : Event → State → Result
  | .step, s => Sys2Proof.Machine.step s
  | .host a, s => hostAct a s

/-- A sequence of events; an action that is refused ends it. -/
def runEvents : List Event → State → Result
  | [], s => .next s
  | e :: es, s =>
    match e.run s with
    | .next s' => runEvents es s'
    | .fault r => .fault r
    | .refused r => .refused r

/-- The loop pair of a well-formed program: LoopForward at `i`, its LoopBack at `j` (R95 item 3). -/
abbrev LoopPair (p : List Instr) (i j : Nat) : Prop :=
  isForwardAt p i = true ∧ matchingBack p i = some j

/-- The four state elements have their reset values (70_reset_and_hazards.md R210). -/
abbrev State.AtReset (s : State) : Prop :=
  (∀ a, s.tape.read a = 0) ∧ s.dp = 0 ∧ s.ip = 0 ∧ s.status = .running

/-- What no opcode writes: the program, `P_IW`, and the reset input (10_state.md R36). -/
abbrev SameConfig (s t : State) : Prop := t.piw = s.piw ∧ t.prog = s.prog ∧ t.rst = s.rst

/-- The input port took no part: no answer was used and no byte consumed. -/
abbrev SameInput (s t : State) : Prop := t.inAnswers = s.inAnswers ∧ t.consumed = s.consumed

/-- The output port took no part: no answer was used and no byte delivered. -/
abbrev SameOutput (s t : State) : Prop := t.outAnswers = s.outAnswers ∧ t.delivered = s.delivered

/-- Every tape cell but the one at index `a` reads as before. -/
abbrev SameCellsBut (a : Nat) (s t : State) : Prop := ∀ b, b ≠ a → t.tape.read b = s.tape.read b

/-- Every word of `P_IW + 3` bits whose `op` field is `code` decodes to `i`, whatever its `tgt` field
(30_encoding.md R80, R84). -/
abbrev EncodedAs (code : Nat) (i : Instr) : Prop :=
  ∀ piw w, w < 2 ^ (piw + 3) → w % 8 = code → decode piw w = .ok i

/-- The significant characters of a source text (30_encoding.md R96). -/
def isSignificant (ch : Char) : Bool :=
  ch == '+' || ch == '-' || ch == '>' || ch == '<' || ch == ',' || ch == '.' || ch == '[' || ch == ']'

end Sys2Proof.Machine
end

