-- ==== Sys2Proof/Certificates/Slice0/Obligations.lean ====
section
/-! DEFINITION. The statements for the provers, in the order of OBLIGATIONS.json. Each docstring names the
rules of spec/ it formalises. -/

open Sys2Proof Sys2Proof.Machine

/-! ## Reset and the step cycle -/

/-- 70_reset_and_hazards.md R210 (the `dp` value and the form of reset are the spec's decisions D9, D16):
asserting reset in any state, holding it, and releasing it all leave the four elements at their reset values;
a waiting transaction is abandoned (60_exceptions.md R185); after release the first step is the terminal check
at `ip = 0`. That the reset input is held in State, and that reset leaves the answers in the ports and the
record of the streams, are the model's choices (assumption log 9 and 5). -/
def Obligations.ResetReinitialisesTheBlock : Prop :=
  ∀ s : State,
    (∃ t, hostAct .assertReset s = .next t ∧ t.rst = true ∧ t.AtReset ∧ t.inReq = false ∧
      t.outReq = false ∧ SameInput s t ∧ SameOutput s t ∧ t.prog = s.prog ∧ t.piw = s.piw) ∧
    (s.rst = true → ∃ t, step s = .next t ∧ t.AtReset ∧ t.inReq = false ∧ t.outReq = false ∧
      SameInput s t ∧ SameOutput s t ∧ SameConfig s t) ∧
    (s.rst = true → ∃ t, hostAct .releaseReset s = .next t ∧ t.rst = false ∧ t.AtReset ∧
      SameInput s t ∧ SameOutput s t ∧ t.prog = s.prog ∧ t.piw = s.piw ∧
      (s.prog = [] → step t = .next { t with status := .done }) ∧
      (∀ w i, s.prog[0]? = some w → decode s.piw w = .ok i → step t = exec i t))

/-- 10_state.md R23, R25, R27: the state right after reset, at every index width. -/
def Obligations.ResetStateHasSpecValues : Prop :=
  State.reset.AtReset ∧ ∀ piw, (State.resetFor piw).AtReset ∧ (State.resetFor piw).piw = piw

/-- 30_encoding.md R91: with reset released and `status` RUNNING, `ip >= N` completes the run with no fetch
and no other write; else the word at `ip` is fetched, decoded and executed. An empty program completes at
its first step. -/
def Obligations.StepChecksFetchesAndExecutes : Prop :=
  ∀ s : State, s.Active →
    (s.progLen ≤ s.ip → step s = .next { s with status := .done }) ∧
    (∀ w i, s.ip < s.progLen → s.prog[s.ip]? = some w → decode s.piw w = .ok i →
      step s = exec i s) ∧
    (s.progLen = 0 → step s = .next { s with status := .done })

/-- 10_state.md R33: once `status` has left RUNNING, no number of steps changes the state while reset stays
released. -/
def Obligations.StoppedBlockTakesNoStep : Prop :=
  ∀ (s : State) (k : Nat), s.rst = false → s.status ≠ .running → core.run k s = .next s

/-- 60_exceptions.md R183, 10_state.md R33: a block that has stopped runs again only through reset, whether
it steps or the host acts. -/
def Obligations.OnlyResetRestarts : Prop :=
  (∀ s t : State, step s = .next t → s.status ≠ .running → t.status = .running → s.rst = true) ∧
  (∀ (a : HostAction) (s t : State), hostAct a s = .next t → s.status ≠ .running →
    t.status = .running → a = .assertReset ∨ s.rst = true)

/-! ## Encoding -/

/-- 30_encoding.md R81 to R84, 95_test_vectors.md (decoder table, `P_IW` = 16): words written out from the
encoding decode to the opcode they stand for, and the table's eight rows do. -/
def Obligations.SpecWordsDecode : Prop :=
  decode 16 0x00000 = .ok .inc ∧ decode 16 0x00018 = .ok .inc ∧ decode 16 0x7FFF9 = .ok .dec ∧
  decode 16 0x00002 = .ok .next ∧ decode 16 0x00003 = .ok .prev ∧ decode 16 0x00004 = .ok .input ∧
  decode 16 0x00005 = .ok .output ∧ decode 16 0x0002E = .ok (.loopForward 5) ∧
  decode 16 0x7FFF6 = .ok (.loopForward 0xFFFE) ∧ decode 16 0x00007 = .ok (.loopBack 0) ∧
  decode 16 0x0000F = .ok (.loopBack 1)

/-- 30_encoding.md R81, R83, R85: every word of `P_IW + 3` bits decodes to exactly one opcode, the one of
its bits [2:0], and the target of a loop opcode is the rest of the word. A wider number, which is no word, is
rejected by name (the model's choice, assumption log 2). -/
def Obligations.EveryWordDecodes : Prop :=
  ∀ piw w,
    (w < 2 ^ (piw + 3) → ∃ i, decode piw w = .ok i ∧ i.opCode = w % 8 ∧ i.WellFormed piw ∧
      (w % 8 = 6 → i = .loopForward (w / 8)) ∧ (w % 8 = 7 → i = .loopBack (w / 8))) ∧
    (2 ^ (piw + 3) ≤ w → decode piw w = .error .wordTooWide)

/-- 30_encoding.md R84: in the six opcodes without a payload the `tgt` field does not matter, neither to the
decoder nor to a step, and the assembler writes zero there. -/
def Obligations.ReservedFieldIgnored : Prop :=
  ∀ piw w w', w < 2 ^ (piw + 3) → w' < 2 ^ (piw + 3) → w % 8 = w' % 8 → w % 8 < 6 →
    decode piw w = decode piw w' ∧
    (∀ i, decode piw w = .ok i → encode i / 8 = 0) ∧
    (∀ s : State, s.Active → s.piw = piw → s.prog[s.ip]? = some w →
      ∀ t, step s = .next t →
        step { s with prog := s.prog.set s.ip w' } = .next { t with prog := s.prog.set s.ip w' })

/-- 30_encoding.md R80, R82, R102: decoding the word of a well-formed instruction gives the instruction
back, with every target the field admits and at every index width. -/
def Obligations.DecodeOfEncode : Prop :=
  ∀ piw (i : Instr), i.WellFormed piw → decode piw (encode i) = .ok i

/-- 30_encoding.md R80, R84, R102: encoding a decoded word gives the word back for the loop opcodes, and the
word with a zero `tgt` field for the six others. -/
def Obligations.EncodeOfDecode : Prop :=
  ∀ piw w (i : Instr), decode piw w = .ok i →
    (6 ≤ w % 8 → encode i = w) ∧ (w % 8 < 6 → encode i = w % 8)

/-! ## The eight opcodes -/

/-- 40_cell_arith.md R120: encoding and symbol, effect, and what stays; 255 wraps to 0; 256 Inc in a row
leave the tape as it was. -/
def Obligations.IncIncrementsTheCell : Prop :=
  EncodedAs 0b000 .inc ∧ opcodeOf '+' = some .inc ∧
  (∀ s : State, s.Executing → s.tape.wf = true → ∃ t, exec .inc s = .next t ∧
    (t.tape.read s.cellAddr).toNat = (s.readCell.toNat + 1) % 256 ∧
    SameCellsBut s.cellAddr s t ∧ t.ip = s.ip + 1 ∧ t.dp = s.dp ∧ t.status = s.status ∧
    SameInput s t ∧ SameOutput s t ∧ SameConfig s t) ∧
  (∀ s : State, s.cellAddr < Config.tapeLen → s.tape.wf = true →
    ∃ t, execTimes .inc 256 s = .next t ∧ t.tape = s.tape ∧ t.dp = s.dp)

/-- 40_cell_arith.md R121: encoding and symbol, effect, and what stays; 0 wraps to 255; Inc then Dec restore
the tape. -/
def Obligations.DecDecrementsTheCell : Prop :=
  EncodedAs 0b001 .dec ∧ opcodeOf '-' = some .dec ∧
  (∀ s : State, s.Executing → s.tape.wf = true → ∃ t, exec .dec s = .next t ∧
    (t.tape.read s.cellAddr).toNat = (s.readCell.toNat + 255) % 256 ∧
    SameCellsBut s.cellAddr s t ∧ t.ip = s.ip + 1 ∧ t.dp = s.dp ∧ t.status = s.status ∧
    SameInput s t ∧ SameOutput s t ∧ SameConfig s t) ∧
  (∀ s : State, s.cellAddr < Config.tapeLen → s.tape.wf = true →
    ∃ t u, exec .inc s = .next t ∧ exec .dec t = .next u ∧ u.tape = s.tape ∧ u.dp = s.dp)

/-- 41_data_pointer.md R130: encoding and symbol, effect, and what stays; 29999 wraps to 0; 30000 Next in a
row leave `dp` unchanged. -/
def Obligations.NextMovesTheDataPointerUp : Prop :=
  EncodedAs 0b010 .next ∧ opcodeOf '>' = some .next ∧
  (∀ s : State, s.Executing → ∃ t, exec .next s = .next t ∧
    t.dp.toNat = (s.dp.toNat + 1) % 30000 ∧
    t.tape = s.tape ∧ t.ip = s.ip + 1 ∧ t.status = s.status ∧
    SameInput s t ∧ SameOutput s t ∧ SameConfig s t) ∧
  (∀ s : State, s.cellAddr < Config.tapeLen →
    ∃ t, execTimes .next 30000 s = .next t ∧ t.dp = s.dp ∧ t.tape = s.tape)

/-- 41_data_pointer.md R131: encoding and symbol, effect, and what stays; 0 wraps to 29999; Next then Prev
restore `dp`. -/
def Obligations.PrevMovesTheDataPointerDown : Prop :=
  EncodedAs 0b011 .prev ∧ opcodeOf '<' = some .prev ∧
  (∀ s : State, s.Executing → ∃ t, exec .prev s = .next t ∧
    (t.dp.toNat : Int) = ((s.dp.toNat : Int) - 1 + 30000) % 30000 ∧
    t.tape = s.tape ∧ t.ip = s.ip + 1 ∧ t.status = s.status ∧
    SameInput s t ∧ SameOutput s t ∧ SameConfig s t) ∧
  (∀ s : State, s.cellAddr < Config.tapeLen →
    ∃ t u, exec .next s = .next t ∧ exec .prev t = .next u ∧ u.dp = s.dp ∧ u.tape = s.tape)

/-- 42_io.md R140 (the zero at exhaustion is the spec's decision D8, the unchanged cell on Error D23): the
four cases of In's port, each with all it writes and all it leaves. -/
def Obligations.InReadsOneByte : Prop :=
  EncodedAs 0b100 .input ∧ opcodeOf ',' = some .input ∧
  (∀ s : State, s.Executing → s.tape.wf = true →
    (∀ b r, s.inAnswers = .byte b :: r → ∃ t, exec .input s = .next t ∧
      t.tape.read s.cellAddr = b ∧ SameCellsBut s.cellAddr s t ∧ t.ip = s.ip + 1 ∧
      t.inAnswers = r ∧ t.consumed = s.consumed ++ [b] ∧
      t.dp = s.dp ∧ t.status = s.status ∧ SameOutput s t ∧ SameConfig s t) ∧
    (∀ r, s.inAnswers = .exhausted :: r → ∃ t, exec .input s = .next t ∧
      t.tape.read s.cellAddr = 0 ∧ SameCellsBut s.cellAddr s t ∧ t.ip = s.ip + 1 ∧
      t.inAnswers = r ∧ t.consumed = s.consumed ∧
      t.dp = s.dp ∧ t.status = s.status ∧ SameOutput s t ∧ SameConfig s t)) ∧
  (∀ s : State, s.cellAddr < Config.tapeLen →
    (∀ r, s.inAnswers = .error :: r →
      exec .input s = .next { s with inAnswers := r, status := .inputFailure }) ∧
    (s.inAnswers = [] → exec .input s = .next s))

/-- 42_io.md R141 (a rejected byte is not delivered: the spec's decision D17): the three cases of Out's
port, each with all it writes and all it leaves. -/
def Obligations.OutWritesOneByte : Prop :=
  EncodedAs 0b101 .output ∧ opcodeOf '.' = some .output ∧
  (∀ s : State, s.Executing → ∀ r, s.outAnswers = .accepted :: r →
    exec .output s = .next { s with
      ip := s.ip + 1, outAnswers := r, delivered := s.delivered ++ [s.readCell] }) ∧
  (∀ s : State, s.cellAddr < Config.tapeLen →
    (∀ r, s.outAnswers = .rejected :: r →
      exec .output s = .next { s with outAnswers := r, status := .outputFailure }) ∧
    (s.outAnswers = [] → exec .output s = .next s))

/-- 43_loop_control.md R160: the jump past the matching LoopBack on a zero cell, the next opcode on any
other; nothing but `ip` is written; a jump past the last opcode completes the run at the next step. The
target is one of a well-formed program, `t < N` (R164): no claim may rest on another (30_encoding.md R93). -/
def Obligations.LoopForwardSkipsOnZero : Prop :=
  (∀ piw w, w < 2 ^ (piw + 3) → w % 8 = 0b110 → decode piw w = .ok (.loopForward (w / 8))) ∧
  opcodeOf '[' = some (.loopForward 0) ∧
  (∀ (s : State) (t : Nat), s.Executing → t < s.progLen →
    (s.readCell = 0 → exec (.loopForward t) s = .next { s with ip := t + 1 }) ∧
    (s.readCell ≠ 0 → exec (.loopForward t) s = .next { s with ip := s.ip + 1 }) ∧
    (s.Active → s.readCell = 0 → t + 1 = s.progLen →
      ∃ u, exec (.loopForward t) s = .next u ∧ step u = .next { u with status := .done }))

/-- 43_loop_control.md R161: the jump to just after the matching LoopForward on a nonzero cell, the next
opcode on zero; nothing but `ip` is written; the LoopBack of an empty loop on a nonzero cell is executed
again in the same state. The target is one of a well-formed program, `t < N` (R164). -/
def Obligations.LoopBackRepeatsOnNonzero : Prop :=
  (∀ piw w, w < 2 ^ (piw + 3) → w % 8 = 0b111 → decode piw w = .ok (.loopBack (w / 8))) ∧
  opcodeOf ']' = some (.loopBack 0) ∧
  (∀ (s : State) (t : Nat), s.Executing → t < s.progLen →
    (s.readCell ≠ 0 → exec (.loopBack t) s = .next { s with ip := t + 1 }) ∧
    (s.readCell = 0 → exec (.loopBack t) s = .next { s with ip := s.ip + 1 }) ∧
    (s.readCell ≠ 0 → t + 1 = s.ip → exec (.loopBack t) s = .next s))

/-! ## Frames, for every state and with no premise but the answer -/

/-- 20_memory.md R51, 10_state.md R24: Inc, Dec and In write no cell but `tape[dp]`, not `dp`, not the
output port, not the program; Inc and Dec no status and no input either. -/
def Obligations.CellWritersFrame : Prop :=
  ∀ (i : Instr) (s t : State), i = .inc ∨ i = .dec ∨ i = .input → exec i s = .next t →
    SameCellsBut s.cellAddr s t ∧ t.dp = s.dp ∧ SameOutput s t ∧ SameConfig s t ∧
    (i ≠ .input → SameInput s t ∧ t.status = s.status) ∧
    (t.status = s.status ∨ (i = .input ∧ t.status = .inputFailure ∧ t.tape = s.tape ∧ t.ip = s.ip))

/-- 41_data_pointer.md R130, R131; 20_memory.md R51: Next and Prev write `dp` and `ip` and nothing else. -/
def Obligations.PointerMovesFrame : Prop :=
  ∀ (i : Instr) (s t : State), i = .next ∨ i = .prev → exec i s = .next t →
    t.tape = s.tape ∧ (∀ a, t.tape.read a = s.tape.read a) ∧ t.status = s.status ∧
    SameInput s t ∧ SameOutput s t ∧ SameConfig s t

/-- 42_io.md R141: Out writes no cell, not `dp`, not the input port, not the program; `status` only on a
rejection, and then `ip` stays. -/
def Obligations.OutFrame : Prop :=
  ∀ s t : State, exec .output s = .next t →
    t.tape = s.tape ∧ (∀ a, t.tape.read a = s.tape.read a) ∧ t.dp = s.dp ∧
    SameInput s t ∧ SameConfig s t ∧
    (t.status = s.status ∨ (t.status = .outputFailure ∧ t.ip = s.ip ∧ t.delivered = s.delivered))

/-- 43_loop_control.md R160, R161, 10_state.md R31: the loop opcodes write `ip` and nothing else, whatever
their target. -/
def Obligations.LoopsFrame : Prop :=
  ∀ (target : Nat) (i : Instr) (s t : State), i = .loopForward target ∨ i = .loopBack target →
    exec i s = .next t →
    t.tape = s.tape ∧ (∀ a, t.tape.read a = s.tape.read a) ∧ t.dp = s.dp ∧ t.status = s.status ∧
    SameInput s t ∧ SameOutput s t ∧ SameConfig s t

/-- 42_io.md R142, 20_memory.md R53: In alone uses the input port and Out alone the output port; each takes
exactly one answer, or waits with the whole state unchanged; no other opcode changes `status`. -/
def Obligations.OnlyInAndOutUseThePorts : Prop :=
  ∀ (i : Instr) (s t : State), exec i s = .next t →
    (i ≠ .input → SameInput s t) ∧ (i ≠ .output → SameOutput s t) ∧
    (i ≠ .input → i ≠ .output → t.status = s.status) ∧
    (i = .input → (s.inAnswers = [] ∧ t = s) ∨ ∃ a, s.inAnswers = a :: t.inAnswers) ∧
    (i = .output → (s.outAnswers = [] ∧ t = s) ∨ ∃ a, s.outAnswers = a :: t.outAnswers)

/-- 60_exceptions.md R180, 30_encoding.md R85, 93_implementation_defined.md U11: while `dp` names a cell
every opcode answers a next state, in every state; at a `dp` in 30000..32767, which no rule reaches, every
opcode faults (the model's fault, as U11 asks). -/
def Obligations.OpcodesStopOnlyOffTheTape : Prop :=
  ∀ (i : Instr) (s : State),
    (s.cellAddr < Config.tapeLen → ∃ t, exec i s = .next t) ∧
    (Config.tapeLen ≤ s.cellAddr → exec i s = .fault .dpOutOfRange)

/-! ## Invariants and whole-machine rules -/

/-- The invariant holds right after reset, at every index width of at least 1 (00_scope.md R6). That the reset
state has a well-formed image is the model's choice: the spec does not reset program memory and `N`, and the
model takes the empty program (assumption log 3). The width 16 of `State.reset` is its choice too (log 1). -/
def Obligations.InvariantAtReset : Prop :=
  State.reset.Inv ∧ ∀ piw, 1 ≤ piw → (State.resetFor piw).Inv

/-- 10_state.md R22, R24, R26, R29, R30; 30_encoding.md R95: every step keeps the invariant. -/
def Obligations.StepKeepsTheInvariant : Prop :=
  ∀ s t : State, s.Inv → step s = .next t → t.Inv

/-- 60_exceptions.md R180, R185; 30_encoding.md R85: from a state that meets the invariant a step always
answers a next state. -/
def Obligations.StepNeverStopsUnderTheInvariant : Prop :=
  ∀ s : State, s.Inv → ∃ t, step s = .next t

/-- 70_reset_and_hazards.md R212, R219: whatever the host or a collaborator does, if it is not refused the
invariant is kept. -/
def Obligations.HostActionsKeepTheInvariant : Prop :=
  ∀ (a : HostAction) (s t : State), s.Inv → hostAct a s = .next t → t.Inv

/-- 00_scope.md R6, 10_state.md R29, 60_exceptions.md R180: from reset at any index width, after any
sequence of steps, loads, resets and port answers, the invariant holds and the next step is answered; no
sequence ends in a fault. That a history begins with the empty program and with no answer in the ports is the
model's choice (assumption log 3 and 4). -/
def Obligations.EveryHistoryIsSafe : Prop :=
  ∀ (piw : Nat) (es : List Event), 1 ≤ piw →
    (∀ t, runEvents es (State.resetFor piw) = .next t → t.Inv ∧ ∃ u, step t = .next u) ∧
    (∀ r, runEvents es (State.resetFor piw) ≠ .fault r)

/-- 10_state.md R28: the next-value multiplexer of `ip`, read off the fetched word. A step that completes
without a fault writes the jump-target path or the incrementer path; a faulting step leaves `ip`. A step whose
transaction still waits has not completed (R35). -/
def Obligations.IpFollowsTheMultiplexer : Prop :=
  ∀ (s t : State) (w : Nat), s.Inv → s.Active → s.prog[s.ip]? = some w → step s = .next t →
    (t.status = .running → s.inReq = false → s.outReq = false →
      t.ip = if w % 8 = 0b110 ∧ s.readCell = 0 then w / 8 + 1
        else if w % 8 = 0b111 ∧ s.readCell ≠ 0 then w / 8 + 1
        else s.ip + 1) ∧
    (t.status ≠ .running → t.ip = s.ip)

/-- 10_state.md R29: for a well-formed program a step that executes an opcode to its end gives `ip` in 1..N,
so no value is cut by the register's width. -/
def Obligations.IpStaysInTheProgram : Prop :=
  ∀ s t : State, s.Inv → s.Active → s.ip < s.progLen → step s = .next t → t.status = .running →
    s.inReq = false → s.outReq = false →
    1 ≤ t.ip ∧ t.ip ≤ s.progLen ∧ t.ip < 2 ^ s.piw

/-- 10_state.md R36, 20_memory.md R52, R66, 70_reset_and_hazards.md R212, R219: no step writes program memory or
the index width, and during a run no action of the host does. That at other times only a load writes the program,
as one action, is the model's form of R212 item 2 (assumption log 15); the index width as a field is log 1. -/
def Obligations.ProgramIsNeverMutated : Prop :=
  (∀ s t : State, step s = .next t → t.prog = s.prog ∧ t.piw = s.piw) ∧
  (∀ (a : HostAction) (s t : State), s.Active → hostAct a s = .next t → t.prog = s.prog) ∧
  (∀ (a : HostAction) (s t : State), hostAct a s = .next t →
    t.piw = s.piw ∧ (t.prog = s.prog ∨ a = .load t.prog))

/-- 30_encoding.md R90, 60_exceptions.md R181: what one step can do to a run. Under reset the block is at its
reset values; else the run goes on, or it ends in one of three ways and no other: the terminal check, an Out
answered Rejected, an In answered Error; and such a step writes `status` and, beyond the answer taken, nothing
else. -/
def Obligations.RunEndsOnlyAsTheSpecSays : Prop :=
  ∀ s t : State, s.status = .running → step s = .next t →
    (s.rst = true ∧ t.AtReset) ∨
    (s.rst = false ∧ t.status = .running) ∨
    (s.progLen ≤ s.ip ∧ t = { s with status := .done }) ∨
    (s.phase = .run .output ∧ ∃ r, s.outAnswers = .rejected :: r ∧
      t = { s with outAnswers := r, status := .outputFailure }) ∨
    (s.phase = .run .input ∧ ∃ r, s.inAnswers = .error :: r ∧
      t = { s with inAnswers := r, status := .inputFailure })

/-- 20_memory.md R57, R63: over any number of steps the answers used are the first ones of each list; the
bytes consumed are those of the Byte answers among them, in order; and the output stream grows by one byte
for each Accepted answer and loses none. -/
def Obligations.PortTransactionsKeepTheirOrder : Prop :=
  ∀ (k : Nat) (s t : State), core.run k s = .next t →
    (∃ used, s.inAnswers = used ++ t.inAnswers ∧ t.consumed = s.consumed ++ bytesOf used) ∧
    (∃ used sent, s.outAnswers = used ++ t.outAnswers ∧ t.delivered = s.delivered ++ sent ∧
      sent.length = acceptedCount used)

/-- 20_memory.md R62: a tape read gives the last byte written to that cell, a write leaves every other cell
alone, and a cell that nothing has written reads 0. -/
def Obligations.TapeReadsTheLastWrite : Prop :=
  (∀ (s : State) (v : Byte), s.tape.wf = true → s.cellAddr < Config.tapeLen →
    (s.writeCell v).tape.wf = true ∧ (s.writeCell v).readCell = v ∧
    SameCellsBut s.cellAddr s (s.writeCell v)) ∧
  (∀ (s : State) (v w : Byte), s.tape.wf = true → s.cellAddr < Config.tapeLen →
    (s.writeCell v).writeCell w = s.writeCell w) ∧
  (∀ piw a, (State.resetFor piw).tape.read a = 0)

/-- 30_encoding.md R87, 10_state.md R28: the opcode rules agree, in every state, with the decoder's table of
control outputs driving the data-pointer comparators and the ip multiplexer. -/
def Obligations.OpcodesAgreeWithControlTable : Prop :=
  ∀ (i : Instr) (s : State), exec i s = runControl (controlOf i) i.target s

/-! ## Loops -/

/-- 43_loop_control.md R162, the tests: at a loop pair i < j of a well-formed program, LoopForward on zero
and LoopBack on zero go to j + 1, LoopForward and LoopBack on nonzero go to i + 1, and nothing else of the
state changes. -/
def Obligations.LoopPairIsAWhileTest : Prop :=
  ∀ (s : State) (i j : Nat), s.Inv → s.Active → LoopPair (decodeProgram s.piw s.prog) i j →
    i < j ∧
    (s.ip = i ∨ s.ip = j → s.readCell = 0 → step s = .next { s with ip := j + 1 }) ∧
    (s.ip = i ∨ s.ip = j → s.readCell ≠ 0 → step s = .next { s with ip := i + 1 })

/-- 43_loop_control.md R162, the body: at a loop pair i < j of a well-formed program, a step from inside the
body stays inside it or arrives at the LoopBack; so the body is left only through the LoopBack's test. -/
def Obligations.LoopBodyIsLeftOnlyAtItsEnd : Prop :=
  ∀ (s t : State) (i j : Nat), s.Inv → s.Active → LoopPair (decodeProgram s.piw s.prog) i j →
    i < s.ip → s.ip < j → step s = .next t → i < t.ip ∧ t.ip ≤ j

/-- 43_loop_control.md R163: the LoopBack of an empty loop on a nonzero cell repeats for ever; after any
number of steps the block is RUNNING in the same state. -/
def Obligations.EmptyLoopRunsForever : Prop :=
  ∀ (s : State) (i k : Nat), s.Inv → s.Active → LoopPair (decodeProgram s.piw s.prog) i (i + 1) →
    s.ip = i + 1 → s.readCell ≠ 0 → core.run k s = .next s

/-! ## Images, the translator and the load -/

/-- 30_encoding.md R102: the image of a successful translation is well-formed, provided it has at most
`2^P_IW − 1` opcodes. -/
def Obligations.TranslatedImagesAreWellFormed : Prop :=
  ∀ (piw : Nat) (src : List Char) (ws : List Nat), assemble src = .ok ws →
    ws.length ≤ 2 ^ piw - 1 → imageWf piw ws = true

/-- 30_encoding.md R98 to R101: translation fails with UnmatchedLoopEnd exactly when some part of the text
from its start has more `]` than `[`, with UnmatchedLoopStart exactly when none has and the whole text has
more `[` than `]`, and else succeeds. No claim is made on the positions reported (90_conflicts.md C4). -/
def Obligations.TranslationFailsExactlyOnUnmatchedLoops : Prop :=
  ∀ src : List Char,
    ((∃ p, translateSource src = .error (.unmatchedLoopEnd p)) ↔
      ∃ n, (src.take n).count '[' < (src.take n).count ']') ∧
    ((∃ ps, translateSource src = .error (.unmatchedLoopStart ps)) ↔
      (∀ n, (src.take n).count ']' ≤ (src.take n).count '[') ∧ src.count ']' < src.count '[') ∧
    ((∃ p, translateSource src = .ok p) ↔
      (∀ n, (src.take n).count ']' ≤ (src.take n).count '[') ∧ src.count ']' = src.count '[')

/-- 30_encoding.md R96, R97, R82: characters outside the eight contribute nothing; each significant character
becomes the one opcode of its row, in source order. The pairing of `>` with Next and `<` with Prev is the spec's
own choice (90_conflicts.md C2, 93_implementation_defined.md G2; assumption log 13). -/
def Obligations.TranslationKeepsSourceOrder : Prop :=
  ∀ src : List Char,
    translateSource src = translateSource (src.filter isSignificant) ∧
    (∀ p, translateSource src = .ok p →
      p.map Instr.opCode = (src.filter isSignificant).filterMap fun ch =>
        if ch = '+' then some 0 else if ch = '-' then some 1 else if ch = '>' then some 2
        else if ch = '<' then some 3 else if ch = ',' then some 4 else if ch = '.' then some 5
        else if ch = '[' then some 6 else if ch = ']' then some 7 else none)

/-- 30_encoding.md R93, 70_reset_and_hazards.md R212, R215, R219, 93_implementation_defined.md U10: the host's load
stores exactly the images that are well-formed. Under reset it leaves the block at its reset values; once
`status` has left RUNNING it changes the program alone; during a run, and with any other image, it is refused.
That the words and `N` are written in one action is the model's form of R212 item 2 (assumption log 15). -/
def Obligations.LoadStoresOnlyWellFormedImages : Prop :=
  ∀ (s : State) (ws : List Nat),
    (s.rst = true → imageWf s.piw ws = true → ∃ t, hostAct (.load ws) s = .next t ∧
      t.prog = ws ∧ t.piw = s.piw ∧ t.rst = true ∧ t.AtReset ∧ SameInput s t ∧ SameOutput s t) ∧
    (s.rst = false → s.status ≠ .running → imageWf s.piw ws = true →
      hostAct (.load ws) s = .next { s with prog := ws }) ∧
    (s.Active → hostAct (.load ws) s = .refused .duringRun) ∧
    (imageWf s.piw ws = false → ∃ r, hostAct (.load ws) s = .refused r)

/-- 70_reset_and_hazards.md R212, 30_encoding.md R102: whenever no run is on, under reset or once `status` has
left RUNNING, the host can load every translated program that the index width holds. -/
def Obligations.TranslatedImagesLoad : Prop :=
  ∀ (s : State) (src : List Char) (ws : List Nat), ¬ s.Active → assemble src = .ok ws →
    ws.length ≤ 2 ^ s.piw - 1 → ∃ t, hostAct (.load ws) s = .next t ∧ t.prog = ws

/-! ## What is seen from outside -/

/-- 60_exceptions.md R182: after a fault the tape, `dp` and `ip` cannot be observed: two stopped blocks with
one failure status and one output stream look alike after any number of steps. -/
def Obligations.FaultedStateIsUnobservable : Prop :=
  ∀ (s s' : State) (k : Nat), s.rst = false → s'.rst = false →
    s.status = .outputFailure ∨ s.status = .inputFailure → s'.status = s.status →
    s'.delivered = s.delivered →
    ∃ t t', core.run k s = .next t ∧ core.run k s' = .next t' ∧ t.observe = t'.observe

/-- 20_memory.md R59, 10_state.md R35, R32: the answer pins read as R59 says, 0b11 as Error; while a request
waits a step changes nothing, and the offered byte is the cell. The status pin carries the codes of R32. That a
request pin is 1 only while no answer is there, so that a step changes nothing then, is the model's choice
(assumption log 16): under R59 the request falls as the step completes with its answer, and in the model an
answer that is there completes the step at once. -/
def Obligations.SignalPortsShowTheTransaction : Prop :=
  (∀ data : Byte, InAnswer.ofPins 0b00 data = .byte data ∧ InAnswer.ofPins 0b01 data = .exhausted ∧
    InAnswer.ofPins 0b10 data = .error ∧ InAnswer.ofPins 0b11 data = .error) ∧
  OutAnswer.ofPins true = .rejected ∧ OutAnswer.ofPins false = .accepted ∧
  (∀ s : State, s.cellAddr < Config.tapeLen →
    (s.outPins.inReq = true → step s = .next s) ∧
    (s.outPins.outReq = true → s.outPins.outData = some s.readCell ∧ step s = .next s)) ∧
  (∀ s : State, s.outPins.pmAddr = s.ip ∧
    (s.outPins.status = 0b00 ↔ s.status = .running) ∧ (s.outPins.status = 0b01 ↔ s.status = .done) ∧
    (s.outPins.status = 0b10 ↔ s.status = .outputFailure) ∧
    (s.outPins.status = 0b11 ↔ s.status = .inputFailure))

/-- Assumption log 7: a word placed with `withFetchWord` is the one the very next step executes, at every
index and every index width that holds the word. -/
def Obligations.PlacedWordIsExecutedNext : Prop :=
  ∀ (s : State) (nbits w : Nat) (i : Instr), decode s.piw (w % 2 ^ nbits) = .ok i →
    step (s.withFetchWord nbits w) = exec i (s.withFetchWord nbits w) ∧
    (s.withFetchWord nbits w).ip = s.ip ∧ (s.withFetchWord nbits w).tape = s.tape ∧
    (s.withFetchWord nbits w).dp = s.dp

/-! ## The host's part -/

/-- 20_memory.md R58, R59, 42_io.md R140, 10_state.md R35: an In that waits is completed by its answer. The step
ends with what R140 gives for that answer, and the answer is used up. -/
def Obligations.AnAnswerCompletesTheWaitingIn : Prop :=
  ∀ s : State, s.Inv → s.inReq = true →
    (∀ b, ∃ t, hostAct (.answerInput (.byte b)) s = .next t ∧ t.tape.read s.cellAddr = b ∧
      SameCellsBut s.cellAddr s t ∧ t.ip = s.ip + 1 ∧ t.dp = s.dp ∧ t.status = s.status ∧
      t.inAnswers = [] ∧ t.consumed = s.consumed ++ [b] ∧ SameOutput s t ∧ SameConfig s t) ∧
    (∃ t, hostAct (.answerInput .exhausted) s = .next t ∧ t.tape.read s.cellAddr = 0 ∧
      SameCellsBut s.cellAddr s t ∧ t.ip = s.ip + 1 ∧ t.dp = s.dp ∧ t.status = s.status ∧
      t.inAnswers = [] ∧ t.consumed = s.consumed ∧ SameOutput s t ∧ SameConfig s t) ∧
    hostAct (.answerInput .error) s = .next { s with status := .inputFailure }

/-- 20_memory.md R58, R59, 42_io.md R141, 10_state.md R35: an Out that waits is completed by its answer. The step
ends with what R141 gives for that answer, and the answer is used up. -/
def Obligations.AnAnswerCompletesTheWaitingOut : Prop :=
  ∀ s : State, s.Inv → s.outReq = true →
    hostAct (.answerOutput .accepted) s =
      .next { s with ip := s.ip + 1, delivered := s.delivered ++ [s.readCell] } ∧
    hostAct (.answerOutput .rejected) s = .next { s with status := .outputFailure }

/-- 70_reset_and_hazards.md R219 (D12): no request is answered twice. An answer is refused while none waits, and
where the block waits again right after an answer it executes another opcode. -/
def Obligations.NoRequestIsAnsweredTwice : Prop :=
  (∀ (s : State) (a : InAnswer), s.inReq = false → hostAct (.answerInput a) s = .refused .noRequest) ∧
  (∀ (s : State) (a : OutAnswer), s.outReq = false →
    hostAct (.answerOutput a) s = .refused .noRequest) ∧
  (∀ (s t : State) (a : InAnswer), s.Inv → hostAct (.answerInput a) s = .next t →
    t.inReq = true ∨ t.outReq = true → t.ip = s.ip + 1) ∧
  (∀ (s t : State) (a : OutAnswer), s.Inv → hostAct (.answerOutput a) s = .next t →
    t.inReq = true ∨ t.outReq = true → t.ip = s.ip + 1)

/-- 20_memory.md R58, 70_reset_and_hazards.md R219 (D12): where the ports hold no answer that was not asked for,
no step and no action leaves one there. That State.reset has none is the model's choice (assumption log 4). -/
def Obligations.NoAnswerComesUnasked : Prop :=
  (∀ piw, (State.resetFor piw).NothingUnasked) ∧
  ∀ (e : Event) (s t : State), s.NothingUnasked → e.run s = .next t → t.NothingUnasked

/-- 70_reset_and_hazards.md R214, 30_encoding.md R91: a run from a state that meets the invariant completes at
`ip = N`, and the completing step writes `status` alone. -/
def Obligations.CompletedRunStandsAtTheEnd : Prop :=
  ∀ s t : State, s.Inv → s.status = .running → step s = .next t → t.status = .done →
    t.ip = t.progLen ∧ t = { s with status := .done }

/-- 70_reset_and_hazards.md R215 (the spec's decision D21), 10_state.md R33: once a run has ended, the tape, `dp`,
`ip` and `status` stay in place until reset is asserted, through every step and every other action of the host, the
load of the next program among them. -/
def Obligations.FinalStateStaysUntilReset : Prop :=
  ∀ (e : Event) (s t : State), s.rst = false → s.status ≠ .running → e ≠ .host .assertReset →
    e.run s = .next t →
    t.tape = s.tape ∧ t.dp = s.dp ∧ t.ip = s.ip ∧ t.status = s.status ∧ t.rst = false

/-- 70_reset_and_hazards.md R212 item 3, 20_memory.md R58: collaborators are connected whenever no run is on; both
streams begin, and nothing of the block changes. During a run the connection is refused. The record of the
streams and where it begins are the model's choices (assumption log 5 and 15). -/
def Obligations.ConnectionBeginsFreshStreams : Prop :=
  ∀ s : State,
    (¬ s.Active → ∃ t, hostAct .connect s = .next t ∧ t.NothingUnasked ∧ t.consumed = [] ∧
      t.delivered = [] ∧ t.tape = s.tape ∧ t.dp = s.dp ∧ t.ip = s.ip ∧ t.status = s.status ∧
      SameConfig s t) ∧
    (s.Active → hostAct .connect s = .refused .duringRun)
end

