-- ==== Sys2Proof/Laws/Decode.lean ====
section
/-! SUPPORT. The decoder and the encoder on numbers: fields, ranges, and which words decode. -/

namespace Sys2Proof

theorem opField_lt (w : Nat) : opField w < 8 := Nat.mod_lt _ (by decide)

theorem opField_eq (w : Nat) : opField w = w % 8 := rfl

theorem wordWidth_eq (piw : Nat) : Config.wordWidth piw = piw + 3 := rfl

/-- On a word the target field is the rest of the word. -/
theorem tgtField_of_word {piw : Nat} {w : Nat} (h : w < 2 ^ (piw + 3)) :
    tgtField piw w = w / 8 := by
  have h8 : w / 8 < 2 ^ piw := by rw [Nat.pow_add] at h; omega
  exact Nat.mod_eq_of_lt h8

theorem tgtField_lt (piw : Nat) (w : Nat) : tgtField piw w < 2 ^ piw :=
  Nat.mod_lt _ (Nat.two_pow_pos piw)

/-- The decoder's two answers. -/
theorem decode_eq_ok_iff {piw : Nat} {w : Nat} {i : Instr} :
    decode piw w = .ok i ↔ w < 2 ^ (piw + 3) ∧ decodeWord piw w = i := by
  unfold decode
  rw [wordWidth_eq]
  split <;> simp_all

theorem decode_of_word {piw : Nat} {w : Nat} (h : w < 2 ^ (piw + 3)) :
    decode piw w = .ok (decodeWord piw w) := decode_eq_ok_iff.mpr ⟨h, rfl⟩

theorem decode_of_wide {piw : Nat} {w : Nat} (h : 2 ^ (piw + 3) ≤ w) :
    decode piw w = .error .wordTooWide := by
  unfold decode
  rw [wordWidth_eq, if_neg (Nat.not_lt.mpr h)]

/-- What the selection can answer: one case per code. -/
theorem selectOp_cases {op t : Nat} (h : op < 8) :
    (op = 0 ∧ selectOp op t = .inc) ∨ (op = 1 ∧ selectOp op t = .dec) ∨
    (op = 2 ∧ selectOp op t = .next) ∨ (op = 3 ∧ selectOp op t = .prev) ∨
    (op = 4 ∧ selectOp op t = .input) ∨ (op = 5 ∧ selectOp op t = .output) ∨
    (op = 6 ∧ selectOp op t = .loopForward t) ∨ (op = 7 ∧ selectOp op t = .loopBack t) := by
  interval_cases op <;> simp [selectOp]

theorem selectOp_opCode {op t : Nat} (h : op < 8) : (selectOp op t).opCode = op := by
  rcases selectOp_cases (t := t) h with h | h | h | h | h | h | h | h <;> (rw [h.2]; exact h.1.symm)

@[simp] theorem decodeWord_opCode (piw : Nat) (w : Nat) : (decodeWord piw w).opCode = w % 8 :=
  selectOp_opCode (opField_lt w)

theorem decodeWord_forward {piw : Nat} {w : Nat} (h : w % 8 = 6) :
    decodeWord piw w = .loopForward (tgtField piw w) := by
  simp [decodeWord, opField_eq, h, selectOp]

theorem decodeWord_back {piw : Nat} {w : Nat} (h : w % 8 = 7) :
    decodeWord piw w = .loopBack (tgtField piw w) := by
  simp [decodeWord, opField_eq, h, selectOp]

/-- What the decoder makes of a word fits the word's target field. -/
theorem decodeWord_wellFormed (piw : Nat) (w : Nat) : (decodeWord piw w).WellFormed piw := by
  have ht := tgtField_lt piw w
  unfold decodeWord
  rcases selectOp_cases (t := tgtField piw w) (opField_lt w) with h | h | h | h | h | h | h | h <;>
    rw [h.2] <;> simp [Instr.WellFormed, Instr.wf, ht]

theorem encode_eq (i : Instr) : encode i = i.target * 8 + i.opCode := rfl

theorem Instr.opCode_lt (i : Instr) : i.opCode < 8 := by cases i <;> simp [Instr.opCode]

/-- The code and the target of an instruction select the instruction. -/
theorem selectOp_self (i : Instr) : selectOp i.opCode i.target = i := by cases i <;> rfl

/-- A well-formed instruction's target, that of the six opcodes without one too, fits the target field. -/
theorem Instr.target_lt {piw : Nat} {i : Instr} (h : i.WellFormed piw) : i.target < 2 ^ piw := by
  cases i with
  | loopForward t => exact of_decide_eq_true h
  | loopBack t => exact of_decide_eq_true h
  | inc | dec | next | prev | input | output => exact Nat.two_pow_pos piw

end Sys2Proof
end

