-- ==== Sys2Proof/Laws/State.lean ====
section
/-! SUPPORT. One lemma per field of State per update: what the named state updates of Machine/Ops.lean write
and what they leave. -/

namespace Sys2Proof.Machine

variable (s : State)

@[simp] theorem State.writeCell_piw (v : Byte) : (s.writeCell v).piw = s.piw := rfl
@[simp] theorem State.writeCell_prog (v : Byte) : (s.writeCell v).prog = s.prog := rfl
@[simp] theorem State.writeCell_rst (v : Byte) : (s.writeCell v).rst = s.rst := rfl
@[simp] theorem State.writeCell_tape (v : Byte) : (s.writeCell v).tape = s.tape.write s.cellAddr v := rfl
@[simp] theorem State.writeCell_dp (v : Byte) : (s.writeCell v).dp = s.dp := rfl
@[simp] theorem State.writeCell_ip (v : Byte) : (s.writeCell v).ip = s.ip := rfl
@[simp] theorem State.writeCell_status (v : Byte) : (s.writeCell v).status = s.status := rfl
@[simp] theorem State.writeCell_inAnswers (v : Byte) : (s.writeCell v).inAnswers = s.inAnswers := rfl
@[simp] theorem State.writeCell_outAnswers (v : Byte) : (s.writeCell v).outAnswers = s.outAnswers := rfl
@[simp] theorem State.writeCell_consumed (v : Byte) : (s.writeCell v).consumed = s.consumed := rfl
@[simp] theorem State.writeCell_delivered (v : Byte) : (s.writeCell v).delivered = s.delivered := rfl

@[simp] theorem State.setDp_piw (d : Nat) : (s.setDp d).piw = s.piw := rfl
@[simp] theorem State.setDp_prog (d : Nat) : (s.setDp d).prog = s.prog := rfl
@[simp] theorem State.setDp_rst (d : Nat) : (s.setDp d).rst = s.rst := rfl
@[simp] theorem State.setDp_tape (d : Nat) : (s.setDp d).tape = s.tape := rfl
@[simp] theorem State.setDp_dp (d : Nat) : (s.setDp d).dp = BitVec.ofNat 15 (d % Config.tapeLen) := rfl
@[simp] theorem State.setDp_ip (d : Nat) : (s.setDp d).ip = s.ip := rfl
@[simp] theorem State.setDp_status (d : Nat) : (s.setDp d).status = s.status := rfl
@[simp] theorem State.setDp_inAnswers (d : Nat) : (s.setDp d).inAnswers = s.inAnswers := rfl
@[simp] theorem State.setDp_outAnswers (d : Nat) : (s.setDp d).outAnswers = s.outAnswers := rfl
@[simp] theorem State.setDp_consumed (d : Nat) : (s.setDp d).consumed = s.consumed := rfl
@[simp] theorem State.setDp_delivered (d : Nat) : (s.setDp d).delivered = s.delivered := rfl

@[simp] theorem State.setIp_piw (n : Nat) : (s.setIp n).piw = s.piw := rfl
@[simp] theorem State.setIp_prog (n : Nat) : (s.setIp n).prog = s.prog := rfl
@[simp] theorem State.setIp_rst (n : Nat) : (s.setIp n).rst = s.rst := rfl
@[simp] theorem State.setIp_tape (n : Nat) : (s.setIp n).tape = s.tape := rfl
@[simp] theorem State.setIp_dp (n : Nat) : (s.setIp n).dp = s.dp := rfl
@[simp] theorem State.setIp_ip (n : Nat) : (s.setIp n).ip = n % 2 ^ s.piw := rfl
@[simp] theorem State.setIp_status (n : Nat) : (s.setIp n).status = s.status := rfl
@[simp] theorem State.setIp_inAnswers (n : Nat) : (s.setIp n).inAnswers = s.inAnswers := rfl
@[simp] theorem State.setIp_outAnswers (n : Nat) : (s.setIp n).outAnswers = s.outAnswers := rfl
@[simp] theorem State.setIp_consumed (n : Nat) : (s.setIp n).consumed = s.consumed := rfl
@[simp] theorem State.setIp_delivered (n : Nat) : (s.setIp n).delivered = s.delivered := rfl

@[simp] theorem State.advance_piw : (s.advance).piw = s.piw := rfl
@[simp] theorem State.advance_prog : (s.advance).prog = s.prog := rfl
@[simp] theorem State.advance_rst : (s.advance).rst = s.rst := rfl
@[simp] theorem State.advance_tape : (s.advance).tape = s.tape := rfl
@[simp] theorem State.advance_dp : (s.advance).dp = s.dp := rfl
@[simp] theorem State.advance_ip : (s.advance).ip = (s.ip + 1) % 2 ^ s.piw := rfl
@[simp] theorem State.advance_status : (s.advance).status = s.status := rfl
@[simp] theorem State.advance_inAnswers : (s.advance).inAnswers = s.inAnswers := rfl
@[simp] theorem State.advance_outAnswers : (s.advance).outAnswers = s.outAnswers := rfl
@[simp] theorem State.advance_consumed : (s.advance).consumed = s.consumed := rfl
@[simp] theorem State.advance_delivered : (s.advance).delivered = s.delivered := rfl

@[simp] theorem State.jumpPast_piw (t : Nat) : (s.jumpPast t).piw = s.piw := rfl
@[simp] theorem State.jumpPast_prog (t : Nat) : (s.jumpPast t).prog = s.prog := rfl
@[simp] theorem State.jumpPast_rst (t : Nat) : (s.jumpPast t).rst = s.rst := rfl
@[simp] theorem State.jumpPast_tape (t : Nat) : (s.jumpPast t).tape = s.tape := rfl
@[simp] theorem State.jumpPast_dp (t : Nat) : (s.jumpPast t).dp = s.dp := rfl
@[simp] theorem State.jumpPast_ip (t : Nat) : (s.jumpPast t).ip = (t + 1) % 2 ^ s.piw := rfl
@[simp] theorem State.jumpPast_status (t : Nat) : (s.jumpPast t).status = s.status := rfl
@[simp] theorem State.jumpPast_inAnswers (t : Nat) : (s.jumpPast t).inAnswers = s.inAnswers := rfl
@[simp] theorem State.jumpPast_outAnswers (t : Nat) : (s.jumpPast t).outAnswers = s.outAnswers := rfl
@[simp] theorem State.jumpPast_consumed (t : Nat) : (s.jumpPast t).consumed = s.consumed := rfl
@[simp] theorem State.jumpPast_delivered (t : Nat) : (s.jumpPast t).delivered = s.delivered := rfl

@[simp] theorem State.raise_piw (e : ExecError) : (s.raise e).piw = s.piw := rfl
@[simp] theorem State.raise_prog (e : ExecError) : (s.raise e).prog = s.prog := rfl
@[simp] theorem State.raise_rst (e : ExecError) : (s.raise e).rst = s.rst := rfl
@[simp] theorem State.raise_tape (e : ExecError) : (s.raise e).tape = s.tape := rfl
@[simp] theorem State.raise_dp (e : ExecError) : (s.raise e).dp = s.dp := rfl
@[simp] theorem State.raise_ip (e : ExecError) : (s.raise e).ip = s.ip := rfl
@[simp] theorem State.raise_status (e : ExecError) : (s.raise e).status = e.status := rfl
@[simp] theorem State.raise_inAnswers (e : ExecError) : (s.raise e).inAnswers = s.inAnswers := rfl
@[simp] theorem State.raise_outAnswers (e : ExecError) : (s.raise e).outAnswers = s.outAnswers := rfl
@[simp] theorem State.raise_consumed (e : ExecError) : (s.raise e).consumed = s.consumed := rfl
@[simp] theorem State.raise_delivered (e : ExecError) : (s.raise e).delivered = s.delivered := rfl

@[simp] theorem State.complete_piw : (s.complete).piw = s.piw := rfl
@[simp] theorem State.complete_prog : (s.complete).prog = s.prog := rfl
@[simp] theorem State.complete_rst : (s.complete).rst = s.rst := rfl
@[simp] theorem State.complete_tape : (s.complete).tape = s.tape := rfl
@[simp] theorem State.complete_dp : (s.complete).dp = s.dp := rfl
@[simp] theorem State.complete_ip : (s.complete).ip = s.ip := rfl
@[simp] theorem State.complete_status : (s.complete).status = .done := rfl
@[simp] theorem State.complete_inAnswers : (s.complete).inAnswers = s.inAnswers := rfl
@[simp] theorem State.complete_outAnswers : (s.complete).outAnswers = s.outAnswers := rfl
@[simp] theorem State.complete_consumed : (s.complete).consumed = s.consumed := rfl
@[simp] theorem State.complete_delivered : (s.complete).delivered = s.delivered := rfl

@[simp] theorem State.hold_piw : (s.hold).piw = s.piw := rfl
@[simp] theorem State.hold_prog : (s.hold).prog = s.prog := rfl
@[simp] theorem State.hold_rst : (s.hold).rst = s.rst := rfl
@[simp] theorem State.hold_tape : (s.hold).tape = [] := rfl
@[simp] theorem State.hold_dp : (s.hold).dp = 0 := rfl
@[simp] theorem State.hold_ip : (s.hold).ip = 0 := rfl
@[simp] theorem State.hold_status : (s.hold).status = .running := rfl
@[simp] theorem State.hold_inAnswers : (s.hold).inAnswers = s.inAnswers := rfl
@[simp] theorem State.hold_outAnswers : (s.hold).outAnswers = s.outAnswers := rfl
@[simp] theorem State.hold_consumed : (s.hold).consumed = s.consumed := rfl
@[simp] theorem State.hold_delivered : (s.hold).delivered = s.delivered := rfl

@[simp] theorem State.writeCell_cellAddr (v : Byte) : (s.writeCell v).cellAddr = s.cellAddr := rfl
@[simp] theorem State.setIp_cellAddr (n : Nat) : (s.setIp n).cellAddr = s.cellAddr := rfl
@[simp] theorem State.advance_cellAddr : s.advance.cellAddr = s.cellAddr := rfl
@[simp] theorem State.jumpPast_cellAddr (t : Nat) : (s.jumpPast t).cellAddr = s.cellAddr := rfl
@[simp] theorem State.raise_cellAddr (e : ExecError) : (s.raise e).cellAddr = s.cellAddr := rfl
@[simp] theorem State.complete_cellAddr : s.complete.cellAddr = s.cellAddr := rfl
@[simp] theorem State.hold_cellAddr : s.hold.cellAddr = 0 := rfl

@[simp] theorem State.writeCell_progLen (v : Byte) : (s.writeCell v).progLen = s.progLen := rfl
@[simp] theorem State.setDp_progLen (d : Nat) : (s.setDp d).progLen = s.progLen := rfl
@[simp] theorem State.setIp_progLen (n : Nat) : (s.setIp n).progLen = s.progLen := rfl
@[simp] theorem State.advance_progLen : s.advance.progLen = s.progLen := rfl
@[simp] theorem State.jumpPast_progLen (t : Nat) : (s.jumpPast t).progLen = s.progLen := rfl
@[simp] theorem State.raise_progLen (e : ExecError) : (s.raise e).progLen = s.progLen := rfl
@[simp] theorem State.complete_progLen : s.complete.progLen = s.progLen := rfl
@[simp] theorem State.hold_progLen : s.hold.progLen = s.progLen := rfl

/-- The data pointer that `setDp` leaves is the remainder, in 0..29999 (10_state.md R24). -/
@[simp] theorem State.setDp_cellAddr (d : Nat) : (s.setDp d).cellAddr = d % Config.tapeLen := by
  have h : d % Config.tapeLen < 30000 := Nat.mod_lt _ (by decide)
  simp only [State.cellAddr, State.setDp, BitVec.toNat_ofNat]
  omega

end Sys2Proof.Machine
end

