-- ==== Sys2Proof/Laws/Memory.lean ====
section
/-! SUPPORT. The laws of the tape: read after write, the canonical form, and extensionality. -/

namespace Sys2Proof.Machine

@[simp] theorem Memory.read_nil (a : Nat) : Memory.read [] a = Memory.unlisted := rfl

theorem Memory.read_cons (b : Nat) (w : Byte) (m : Memory) (a : Nat) :
    Memory.read ((b, w) :: m) a = if b = a then w else Memory.read m a := rfl

theorem Memory.wfFrom_cons {lo a : Nat} {v : Byte} {m : Memory} :
    Memory.wfFrom lo ((a, v) :: m) = true ↔
      lo ≤ a ∧ a < Config.tapeLen ∧ v ≠ Memory.unlisted ∧ Memory.wfFrom (a + 1) m = true := by
  simp [Memory.wfFrom, and_assoc]

theorem Memory.wfFrom_mono {lo hi : Nat} (h : lo ≤ hi) {m : Memory}
    (hm : Memory.wfFrom hi m = true) : Memory.wfFrom lo m = true := by
  cases m with
  | nil => rfl
  | cons c m =>
    obtain ⟨a, v⟩ := c
    obtain ⟨h1, h2⟩ := Memory.wfFrom_cons.mp hm
    exact Memory.wfFrom_cons.mpr ⟨h.trans h1, h2⟩

/-- Below its first index a canonical tape lists nothing. -/
theorem Memory.read_below {lo a : Nat} {m : Memory} (hm : Memory.wfFrom lo m = true) (ha : a < lo) :
    Memory.read m a = Memory.unlisted := by
  induction m generalizing lo with
  | nil => rfl
  | cons c m ih =>
    obtain ⟨b, v⟩ := c
    obtain ⟨h1, _, _, h2⟩ := Memory.wfFrom_cons.mp hm
    rw [Memory.read_cons, if_neg (by omega)]
    exact ih h2 (by omega)

/-- A write leaves every other cell alone. -/
theorem Memory.read_write_ne {a b : Nat} (m : Memory) (v : Byte) (h : b ≠ a) :
    Memory.read (Memory.write m a v) b = Memory.read m b := by
  induction m with
  | nil =>
    simp only [Memory.write]
    split
    · rfl
    · rw [Memory.read_cons, if_neg (Ne.symm h)]
  | cons c m ih =>
    obtain ⟨d, w⟩ := c
    simp only [Memory.write]
    split
    · rw [Memory.read_cons, Memory.read_cons, ih]
    · split <;> split <;> simp_all [Memory.read_cons, Ne.symm h]

/-- A read after a write to the same cell gives the byte written. -/
theorem Memory.read_write_same {lo a : Nat} {m : Memory} (hm : Memory.wfFrom lo m = true) (v : Byte) :
    Memory.read (Memory.write m a v) a = v := by
  induction m generalizing lo with
  | nil =>
    simp only [Memory.write]
    split
    · next h => exact h.symm
    · simp [Memory.read_cons]
  | cons c m ih =>
    obtain ⟨d, w⟩ := c
    obtain ⟨_, _, _, h2⟩ := Memory.wfFrom_cons.mp hm
    simp only [Memory.write]
    split
    · next hd => rw [Memory.read_cons, if_neg (by omega), ih h2]
    · next hd =>
      split
      · next hv =>
        split
        · next hda => rw [Memory.read_below h2 (by omega), hv]
        · next hda =>
          rw [Memory.read_cons, if_neg hda, Memory.read_below h2 (by omega), hv]
      · next hv => simp [Memory.read_cons]

/-- A write to a cell that exists keeps the canonical form. -/
theorem Memory.write_wfFrom {lo a : Nat} {m : Memory} (v : Byte) (hm : Memory.wfFrom lo m = true)
    (hlo : lo ≤ a) (ha : a < Config.tapeLen) : Memory.wfFrom lo (Memory.write m a v) = true := by
  induction m generalizing lo with
  | nil =>
    simp only [Memory.write]
    split
    · rfl
    · next h => exact Memory.wfFrom_cons.mpr ⟨hlo, ha, h, rfl⟩
  | cons c m ih =>
    obtain ⟨d, w⟩ := c
    obtain ⟨h0, h1, hw, h2⟩ := Memory.wfFrom_cons.mp hm
    simp only [Memory.write]
    split
    · next hd => exact Memory.wfFrom_cons.mpr ⟨h0, h1, hw, ih h2 (by omega)⟩
    · next hd =>
      split
      · next hv =>
        split
        · exact Memory.wfFrom_mono (by omega) h2
        · exact hm
      · next hv =>
        split
        · next hda => exact Memory.wfFrom_cons.mpr ⟨hlo, ha, hv, hda ▸ h2⟩
        · next hda =>
          exact Memory.wfFrom_cons.mpr
            ⟨hlo, ha, hv, Memory.wfFrom_cons.mpr ⟨by omega, h1, hw, h2⟩⟩

/-- A write to a cell that exists keeps the tape canonical. -/
theorem Memory.write_wf {a : Nat} {m : Memory} (v : Byte) (hm : m.wf = true)
    (ha : a < Config.tapeLen) : Memory.wf (Memory.write m a v) = true :=
  Memory.write_wfFrom v hm (Nat.zero_le a) ha

theorem Memory.read_write_self {a : Nat} {m : Memory} (hm : m.wf = true) (v : Byte) :
    Memory.read (Memory.write m a v) a = v :=
  Memory.read_write_same hm v

/-- Canonical tapes that read alike are the same list. -/
theorem Memory.eq_of_read_eq {lo lo' : Nat} {m n : Memory} (hm : Memory.wfFrom lo m = true)
    (hn : Memory.wfFrom lo' n = true) (h : ∀ a, Memory.read m a = Memory.read n a) : m = n := by
  induction m generalizing lo lo' n with
  | nil =>
    cases n with
    | nil => rfl
    | cons c n =>
      obtain ⟨b, w⟩ := c
      have hb := h b
      rw [Memory.read_cons, if_pos rfl, Memory.read_nil] at hb
      exact absurd hb.symm (Memory.wfFrom_cons.mp hn).2.2.1
  | cons c m ih =>
    obtain ⟨a, v⟩ := c
    obtain ⟨_, _, hv, hm'⟩ := Memory.wfFrom_cons.mp hm
    cases n with
    | nil =>
      have ha := h a
      rw [Memory.read_cons, if_pos rfl, Memory.read_nil] at ha
      exact absurd ha hv
    | cons d n =>
      obtain ⟨b, w⟩ := d
      obtain ⟨_, _, hw, hn'⟩ := Memory.wfFrom_cons.mp hn
      have hab : a = b := by
        rcases Nat.lt_trichotomy a b with hlt | heq | hgt
        · have ha := h a
          rw [Memory.read_cons, if_pos rfl, Memory.read_cons, if_neg (by omega),
            Memory.read_below hn' (by omega)] at ha
          exact absurd ha hv
        · exact heq
        · have hb := h b
          rw [Memory.read_cons, if_neg (by omega), Memory.read_cons, if_pos rfl,
            Memory.read_below hm' (by omega)] at hb
          exact absurd hb.symm hw
      subst hab
      have hvw : v = w := by simpa [Memory.read_cons] using h a
      subst hvw
      rw [ih hm' hn' fun x => ?_]
      rcases Nat.lt_or_ge x (a + 1) with hx | hx
      · rw [Memory.read_below hm' hx, Memory.read_below hn' hx]
      · have := h x
        rwa [Memory.read_cons, Memory.read_cons, if_neg (by omega), if_neg (by omega)] at this

/-- Two writes to one cell: the second alone counts. -/
theorem Memory.write_write {a : Nat} {m : Memory} (hm : m.wf = true) (ha : a < Config.tapeLen)
    (v w : Byte) : Memory.write (Memory.write m a v) a w = Memory.write m a w := by
  have h1 := Memory.write_wf v hm ha
  refine Memory.eq_of_read_eq (Memory.write_wf w h1 ha) (Memory.write_wf w hm ha) fun b => ?_
  by_cases hb : b = a
  · subst hb; rw [Memory.read_write_self h1, Memory.read_write_self hm]
  · simp [Memory.read_write_ne _ _ hb]

/-- Writing what is there changes nothing. -/
theorem Memory.write_read {a : Nat} {m : Memory} (hm : m.wf = true) (ha : a < Config.tapeLen) :
    Memory.write m a (Memory.read m a) = m := by
  refine Memory.eq_of_read_eq (Memory.write_wf _ hm ha) hm fun b => ?_
  by_cases hb : b = a
  · subst hb; rw [Memory.read_write_self hm]
  · exact Memory.read_write_ne _ _ hb

/-- The tape is canonical at reset and while reset is held. -/
theorem reset_tape_wf (piw : Nat) : (State.resetFor piw).tape.wf = true := rfl

theorem hold_tape_wf (s : State) : s.hold.tape.wf = true := rfl

end Sys2Proof.Machine
end

