-- ==== Sys2Proof/Laws/Operands.lean ====
section
/-! SUPPORT. What the shared operand forms and the two port transactions can answer, said once. -/

namespace Sys2Proof.Machine

theorem tapeLen_eq : Config.tapeLen = 30000 := rfl

theorem cellAddr_eq (s : State) : s.cellAddr = s.dp.toNat := rfl

theorem readCell_eq (s : State) : s.readCell = s.tape.read s.cellAddr := rfl

/-- `setDp` always leaves `dp` on the tape. -/
theorem setDp_onTape (s : State) (d : Nat) : (s.setDp d).cellAddr < Config.tapeLen := by
  rw [State.setDp_cellAddr]
  exact Nat.mod_lt _ (by decide)

/-- The value of the data pointer that `setDp` leaves. -/
theorem setDp_toNat (s : State) (d : Nat) : (s.setDp d).dp.toNat = d % 30000 :=
  State.setDp_cellAddr s d

/-- In a program no longer than the block supports the register's width cuts no `ip` up to `N`
(10_state.md R29). -/
theorem narrow_of_le_progLen {s : State} (h : s.progLen ≤ Config.maxProgLen s.piw) {n : Nat}
    (hn : n ≤ s.progLen) : n % 2 ^ s.piw = n := by
  have := Nat.one_le_two_pow (n := s.piw)
  exact Nat.mod_eq_of_lt (by unfold Config.maxProgLen at h; omega)

theorem advance_eq {s : State} (h : s.progLen ≤ Config.maxProgLen s.piw) (hip : s.ip < s.progLen) :
    s.advance = { s with ip := s.ip + 1 } := by
  simp only [State.advance, State.setIp, narrow_of_le_progLen h hip]

theorem jumpPast_eq {s : State} (h : s.progLen ≤ Config.maxProgLen s.piw) {t : Nat}
    (ht : t < s.progLen) : s.jumpPast t = { s with ip := t + 1 } := by
  simp only [State.jumpPast, State.setIp, narrow_of_le_progLen h ht]

theorem withDp_of_onTape {s : State} (h : s.cellAddr < Config.tapeLen) (k : Nat → Result) :
    withDp s k = k s.cellAddr := if_pos h

theorem withDp_of_offTape {s : State} (h : Config.tapeLen ≤ s.cellAddr) (k : Nat → Result) :
    withDp s k = .fault .dpOutOfRange := if_neg (Nat.not_lt.mpr h)

theorem withCell_of_onTape {s : State} (h : s.cellAddr < Config.tapeLen) (k : Byte → Result) :
    withCell s k = k s.readCell := if_pos h

theorem withCell_of_offTape {s : State} (h : Config.tapeLen ≤ s.cellAddr) (k : Byte → Result) :
    withCell s k = .fault .dpOutOfRange := withDp_of_offTape h _

/-- If an operation over `dp` answers a next state, `dp` names a cell and the operation's body answered. -/
theorem withDp_next {s t : State} {k : Nat → Result} (h : withDp s k = .next t) :
    s.cellAddr < Config.tapeLen ∧ k s.cellAddr = .next t := by
  rcases Nat.lt_or_ge s.cellAddr Config.tapeLen with hs | hs
  · exact ⟨hs, withDp_of_onTape hs k ▸ h⟩
  · rw [withDp_of_offTape hs] at h; cases h

theorem withCell_next {s t : State} {k : Byte → Result} (h : withCell s k = .next t) :
    s.cellAddr < Config.tapeLen ∧ k s.readCell = .next t := withDp_next h

@[simp] theorem eofCell_eq (c : Byte) : eofCell c = 0 := rfl

theorem inPort_of_nil {s : State} (h : s.inAnswers = []) : s.inPort = none := by
  simp [State.inPort, h]

theorem inPort_of_byte {s : State} {b : Byte} {r : List InAnswer} (h : s.inAnswers = .byte b :: r) :
    s.inPort = some (.byte b, { s with inAnswers := r, consumed := s.consumed ++ [b] }) := by
  simp [State.inPort, h]

theorem inPort_of_exhausted {s : State} {r : List InAnswer} (h : s.inAnswers = .exhausted :: r) :
    s.inPort = some (.exhausted, { s with inAnswers := r }) := by
  simp [State.inPort, h]

theorem inPort_of_error {s : State} {r : List InAnswer} (h : s.inAnswers = .error :: r) :
    s.inPort = some (.error, { s with inAnswers := r }) := by
  simp [State.inPort, h]

theorem outPort_of_nil {s : State} (h : s.outAnswers = []) (b : Byte) : s.outPort b = none := by
  simp [State.outPort, h]

theorem outPort_of_accepted {s : State} {r : List OutAnswer} (h : s.outAnswers = .accepted :: r)
    (b : Byte) :
    s.outPort b =
      some (.accepted, { s with outAnswers := r, delivered := s.delivered ++ [b] }) := by
  simp [State.outPort, h]

theorem outPort_of_rejected {s : State} {r : List OutAnswer} (h : s.outAnswers = .rejected :: r)
    (b : Byte) : s.outPort b = some (.rejected, { s with outAnswers := r }) := by
  simp [State.outPort, h]

end Sys2Proof.Machine
end

