-- ==== Sys2Proof/Laws/Exec.lean ====
section
/-! SUPPORT. Each instruction's meaning as an equation while `dp` names a cell, and the one inversion lemma of
`exec`: everything an opcode that answers a next state can have done. -/

namespace Sys2Proof.Machine

variable {s t : State}

theorem addCell_toNat (c : Byte) (k : Nat) : (addCell c k).toNat = (c.toNat + k) % 256 := by
  simp [addCell]

@[simp] theorem addCell_zero (c : Byte) : addCell c 0 = c := by
  apply BitVec.eq_of_toNat_eq; rw [addCell_toNat]; omega

/-- Cell arithmetic is modulo 256 (40_cell_arith.md). -/
@[simp] theorem addCell_256 (c : Byte) : addCell c 256 = c := by
  apply BitVec.eq_of_toNat_eq; rw [addCell_toNat]; omega

@[simp] theorem addCell_addCell (c : Byte) (j k : Nat) :
    addCell (addCell c j) k = addCell c (j + k) := by
  apply BitVec.eq_of_toNat_eq; simp only [addCell_toNat]; omega

theorem execInc_eq (h : s.cellAddr < Config.tapeLen) :
    execInc s = .next (s.writeCell (addCell s.readCell 1)).advance := withCell_of_onTape h _

theorem execDec_eq (h : s.cellAddr < Config.tapeLen) :
    execDec s = .next (s.writeCell (addCell s.readCell 255)).advance := withCell_of_onTape h _

theorem execNext_eq (h : s.cellAddr < Config.tapeLen) :
    execNext s = .next (s.setDp (s.cellAddr + 1)).advance := withDp_of_onTape h _

theorem execPrev_eq (h : s.cellAddr < Config.tapeLen) :
    execPrev s = .next (s.setDp (Config.tapeLen - 1 + s.cellAddr)).advance := withDp_of_onTape h _

theorem execIn_wait (h : s.cellAddr < Config.tapeLen) (ha : s.inAnswers = []) :
    execIn s = .next s := by
  rw [execIn, withCell_of_onTape h, inPort_of_nil ha]

theorem execIn_byte {b : Byte} {r : List InAnswer} (h : s.cellAddr < Config.tapeLen)
    (ha : s.inAnswers = .byte b :: r) :
    execIn s =
      .next { (s.writeCell b).advance with inAnswers := r, consumed := s.consumed ++ [b] } := by
  rw [execIn, withCell_of_onTape h, inPort_of_byte ha]; rfl

theorem execIn_exhausted {r : List InAnswer} (h : s.cellAddr < Config.tapeLen)
    (ha : s.inAnswers = .exhausted :: r) :
    execIn s = .next { (s.writeCell 0).advance with inAnswers := r } := by
  rw [execIn, withCell_of_onTape h, inPort_of_exhausted ha]; rfl

theorem execIn_error {r : List InAnswer} (h : s.cellAddr < Config.tapeLen)
    (ha : s.inAnswers = .error :: r) :
    execIn s = .next { s with inAnswers := r, status := .inputFailure } := by
  rw [execIn, withCell_of_onTape h, inPort_of_error ha]; rfl

theorem execOut_wait (h : s.cellAddr < Config.tapeLen) (ha : s.outAnswers = []) :
    execOut s = .next s := by
  rw [execOut, withCell_of_onTape h, outPort_of_nil ha]

theorem execOut_accepted {r : List OutAnswer} (h : s.cellAddr < Config.tapeLen)
    (ha : s.outAnswers = .accepted :: r) :
    execOut s =
      .next { s.advance with outAnswers := r, delivered := s.delivered ++ [s.readCell] } := by
  rw [execOut, withCell_of_onTape h, outPort_of_accepted ha]; rfl

theorem execOut_rejected {r : List OutAnswer} (h : s.cellAddr < Config.tapeLen)
    (ha : s.outAnswers = .rejected :: r) :
    execOut s = .next { s with outAnswers := r, status := .outputFailure } := by
  rw [execOut, withCell_of_onTape h, outPort_of_rejected ha]; rfl

theorem execLoopForward_eq (h : s.cellAddr < Config.tapeLen) (n : Nat) :
    execLoopForward n s = .next (if s.readCell = 0 then s.jumpPast n else s.advance) := by
  rw [execLoopForward, withCell_of_onTape h]
  simp [cellIsZero]

theorem execLoopBack_eq (h : s.cellAddr < Config.tapeLen) (n : Nat) :
    execLoopBack n s = .next (if s.readCell = 0 then s.advance else s.jumpPast n) := by
  rw [execLoopBack, withCell_of_onTape h]
  simp [cellIsZero]

/-- Off the tape every opcode faults (93_implementation_defined.md U11). -/
theorem exec_of_offTape (h : Config.tapeLen ≤ s.cellAddr) (i : Instr) :
    exec i s = .fault .dpOutOfRange := by
  cases i <;> exact if_neg (Nat.not_lt.mpr h)

/-- Everything an opcode that answers a next state can have done: wait at a port; fail at a port; or
complete, with the cell or the data pointer written, an answer taken, and `ip` moved along one of the two
paths of 10_state.md R28. -/
inductive Effect (s : State) : Instr → State → Prop
  | inc : Effect s .inc (s.writeCell (addCell s.readCell 1)).advance
  | dec : Effect s .dec (s.writeCell (addCell s.readCell 255)).advance
  | next : Effect s .next (s.setDp (s.cellAddr + 1)).advance
  | prev : Effect s .prev (s.setDp (Config.tapeLen - 1 + s.cellAddr)).advance
  | inWait (ha : s.inAnswers = []) : Effect s .input s
  | inByte {b r} (ha : s.inAnswers = .byte b :: r) :
      Effect s .input { (s.writeCell b).advance with inAnswers := r, consumed := s.consumed ++ [b] }
  | inExhausted {r} (ha : s.inAnswers = .exhausted :: r) :
      Effect s .input { (s.writeCell 0).advance with inAnswers := r }
  | inError {r} (ha : s.inAnswers = .error :: r) :
      Effect s .input { s with inAnswers := r, status := .inputFailure }
  | outWait (ha : s.outAnswers = []) : Effect s .output s
  | outAccepted {r} (ha : s.outAnswers = .accepted :: r) :
      Effect s .output
        { s.advance with outAnswers := r, delivered := s.delivered ++ [s.readCell] }
  | outRejected {r} (ha : s.outAnswers = .rejected :: r) :
      Effect s .output { s with outAnswers := r, status := .outputFailure }
  | forwardZero {n} (hc : s.readCell = 0) : Effect s (.loopForward n) (s.jumpPast n)
  | forwardNonzero {n} (hc : s.readCell ≠ 0) : Effect s (.loopForward n) s.advance
  | backZero {n} (hc : s.readCell = 0) : Effect s (.loopBack n) s.advance
  | backNonzero {n} (hc : s.readCell ≠ 0) : Effect s (.loopBack n) (s.jumpPast n)

/-- On the tape every opcode answers a next state, and its effect is one of `Effect`. -/
theorem exec_effect (h : s.cellAddr < Config.tapeLen) (i : Instr) :
    ∃ t, exec i s = .next t ∧ Effect s i t := by
  cases i with
  | inc => exact ⟨_, execInc_eq h, .inc⟩
  | dec => exact ⟨_, execDec_eq h, .dec⟩
  | next => exact ⟨_, execNext_eq h, .next⟩
  | prev => exact ⟨_, execPrev_eq h, .prev⟩
  | input =>
    match ha : s.inAnswers with
    | [] => exact ⟨_, execIn_wait h ha, .inWait ha⟩
    | .byte b :: r => exact ⟨_, execIn_byte h ha, .inByte ha⟩
    | .exhausted :: r => exact ⟨_, execIn_exhausted h ha, .inExhausted ha⟩
    | .error :: r => exact ⟨_, execIn_error h ha, .inError ha⟩
  | output =>
    match ha : s.outAnswers with
    | [] => exact ⟨_, execOut_wait h ha, .outWait ha⟩
    | .accepted :: r => exact ⟨_, execOut_accepted h ha, .outAccepted ha⟩
    | .rejected :: r => exact ⟨_, execOut_rejected h ha, .outRejected ha⟩
  | loopForward n =>
    refine ⟨_, execLoopForward_eq h n, ?_⟩
    split
    · next hc => exact .forwardZero hc
    · next hc => exact .forwardNonzero hc
  | loopBack n =>
    refine ⟨_, execLoopBack_eq h n, ?_⟩
    split
    · next hc => exact .backZero hc
    · next hc => exact .backNonzero hc

/-- The inversion lemma of `exec`. -/
theorem exec_next_cases {i : Instr} (h : exec i s = .next t) :
    s.cellAddr < Config.tapeLen ∧ Effect s i t := by
  rcases Nat.lt_or_ge s.cellAddr Config.tapeLen with hs | hs
  · obtain ⟨u, hu, he⟩ := exec_effect hs i
    rw [hu] at h
    cases h
    exact ⟨hs, he⟩
  · rw [exec_of_offTape hs] at h; cases h

/-- An opcode never refuses. -/
theorem exec_ne_refused (i : Instr) (s : State) (r : Refusal) : exec i s ≠ .refused r := by
  rcases Nat.lt_or_ge s.cellAddr Config.tapeLen with hs | hs
  · obtain ⟨u, hu, -⟩ := exec_effect hs i
    simp [hu]
  · simp [exec_of_offTape hs]

end Sys2Proof.Machine
end

