-- ==== Sys2Proof/Laws/Image.lean ====
section
/-! SUPPORT. What a well-formed image guarantees (30_encoding.md R95), as propositions: the nesting count along
the program, the loop pairs, and where the targets point. -/

namespace Sys2Proof.Machine

variable {p : List Instr} {i j k : Nat}

theorem isForwardAt_iff : isForwardAt p i = true ↔ ∃ t, p[i]? = some (.loopForward t) := by
  unfold isForwardAt
  cases p[i]? with
  | none => simp
  | some x => cases x <;> simp [Instr.isLoopForward]

theorem isBackAt_iff : isBackAt p i = true ↔ ∃ t, p[i]? = some (.loopBack t) := by
  unfold isBackAt
  cases p[i]? with
  | none => simp
  | some x => cases x <;> simp [Instr.isLoopBack]

theorem lt_length_of_isForwardAt (h : isForwardAt p i = true) : i < p.length := by
  obtain ⟨t, ht⟩ := isForwardAt_iff.mp h
  exact (List.getElem?_eq_some_iff.mp ht).1

theorem lt_length_of_isBackAt (h : isBackAt p i = true) : i < p.length := by
  obtain ⟨t, ht⟩ := isBackAt_iff.mp h
  exact (List.getElem?_eq_some_iff.mp ht).1

theorem not_isBackAt_of_isForwardAt (h : isForwardAt p i = true) : isBackAt p i = false := by
  obtain ⟨t, ht⟩ := isForwardAt_iff.mp h
  simp [isBackAt, ht, Instr.isLoopBack]

/-- The nesting count from one index to the next (R95 item 2). -/
theorem openCount_succ (h : i < p.length) :
    openCount p (i + 1) =
      openCount p i + (if isForwardAt p i then 1 else 0) - (if isBackAt p i then 1 else 0) := by
  unfold openCount isForwardAt isBackAt
  rw [List.take_add_one, List.getElem?_eq_getElem h]
  cases hx : p[i] <;>
    simp [List.countP_append, Instr.isLoopForward, Instr.isLoopBack] <;> omega

theorem openCount_succ_forward (h : isForwardAt p i = true) :
    openCount p (i + 1) = openCount p i + 1 := by
  rw [openCount_succ (lt_length_of_isForwardAt h), h, not_isBackAt_of_isForwardAt h]; simp

/-- The count falls by at most 1 a step, and falls only at a LoopBack. -/
theorem openCount_succ_ge (h : i < p.length) : openCount p i - 1 ≤ openCount p (i + 1) := by
  rw [openCount_succ h]; split <;> split <;> omega

theorem isBackAt_of_openCount_lt (h : i < p.length) (hlt : openCount p (i + 1) < openCount p i) :
    isBackAt p i = true := by
  rw [openCount_succ h] at hlt
  cases hb : isBackAt p i with
  | true => rfl
  | false => rw [hb] at hlt; split at hlt <;> simp at hlt

/-- The match of index `i`: the least LoopBack after it at which the count is back at its value. -/
theorem matchingBack_eq_some :
    matchingBack p i = some j ↔
      (i < j ∧ openCount p (j + 1) = openCount p i ∧ isBackAt p j = true) ∧
      ∀ k, k < j → i < k → openCount p (k + 1) = openCount p i → isBackAt p k = false := by
  unfold matchingBack
  rw [List.find?_range_eq_some]
  simp only [Bool.and_eq_true, decide_eq_true_eq, List.mem_range, Bool.not_eq_true',
    Bool.and_eq_false_iff, decide_eq_false_iff_not, and_assoc]
  constructor
  · rintro ⟨h1, h2, h3, _, h5⟩
    refine ⟨h1, h2, h3, fun k hk hik ho => ?_⟩
    rcases h5 k hk with h | h
    · rcases h with h | h
      · exact absurd hik h
      · exact absurd ho h
    · exact h
  · rintro ⟨h1, h2, h3, h4⟩
    refine ⟨h1, h2, h3, lt_length_of_isBackAt h3, fun k hk => ?_⟩
    by_cases hik : i < k <;> by_cases ho : openCount p (k + 1) = openCount p i
    · exact .inr (h4 k hk hik ho)
    all_goals simp [hik, ho]

/-- Between a LoopForward and its match the count is above the LoopForward's. -/
theorem openCount_inside (hf : isForwardAt p i = true) (hm : matchingBack p i = some j) {x : Nat}
    (hx : i < x) (hxj : x ≤ j) : openCount p i + 1 ≤ openCount p x := by
  obtain ⟨⟨_, _, hb⟩, hleast⟩ := matchingBack_eq_some.mp hm
  induction x with
  | zero => omega
  | succ x ih =>
    rcases Nat.lt_or_ge i x with hix | hix
    · have hxl : x < p.length := by have := lt_length_of_isBackAt hb; omega
      have h1 := ih hix (by omega)
      have h2 := openCount_succ_ge hxl
      by_contra hcon
      have heq : openCount p (x + 1) = openCount p i := by omega
      have hbk := isBackAt_of_openCount_lt hxl (by omega)
      rw [hleast x (by omega) hix heq] at hbk
      cases hbk
    · obtain rfl : x = i := by omega
      rw [openCount_succ_forward hf]

/-- If the count returns to a LoopForward's value by index `x`, its match lies before `x`. -/
theorem exists_return (hf : openCount p i < openCount p (i + 1)) {x : Nat} (hx : i < x)
    (hxl : x ≤ p.length) (hr : openCount p x ≤ openCount p i) :
    ∃ m, i < m ∧ m < x ∧ openCount p (m + 1) = openCount p i ∧ isBackAt p m = true := by
  induction x with
  | zero => omega
  | succ x ih =>
    rcases Nat.lt_or_ge i x with hix | hix
    · rcases Int.lt_or_le (openCount p i) (openCount p x) with h | h
      · have h2 := openCount_succ_ge (p := p) (i := x) (by omega)
        exact ⟨x, hix, by omega, by omega, isBackAt_of_openCount_lt (by omega) (by omega)⟩
      · obtain ⟨m, h1, h2, h3⟩ := ih hix (by omega) h
        exact ⟨m, h1, by omega, h3⟩
    · obtain rfl : x = i := by omega
      omega

/-- R95 as propositions. -/
structure Resolved (piw : Nat) (p : List Instr) : Prop where
  length_le : p.length ≤ Config.maxProgLen piw
  open_nonneg : ∀ i, i ≤ p.length → 0 ≤ openCount p i
  open_end : openCount p p.length = 0
  forward : ∀ i, isForwardAt p i = true →
    ∃ j, matchingBack p i = some j ∧ p[i]? = some (.loopForward j) ∧ p[j]? = some (.loopBack i)
  back : ∀ j, isBackAt p j = true → ∃ i, isForwardAt p i = true ∧ matchingBack p i = some j

theorem target_of_forward {t : Nat} (h : isForwardAt p i = true) (ht : targetAt p i = some t) :
    p[i]? = some (.loopForward t) := by
  obtain ⟨u, hu⟩ := isForwardAt_iff.mp h
  simp only [targetAt, hu, Option.map_some, Instr.target, Option.some.injEq] at ht
  rw [hu, ht]

theorem target_of_back {t : Nat} (h : isBackAt p i = true) (ht : targetAt p i = some t) :
    p[i]? = some (.loopBack t) := by
  obtain ⟨u, hu⟩ := isBackAt_iff.mp h
  simp only [targetAt, hu, Option.map_some, Instr.target, Option.some.injEq] at ht
  rw [hu, ht]

theorem resolved_of_programWf {piw : Nat} (h : programWf piw p = true) : Resolved piw p := by
  simp only [programWf, isBalanced, forwardsResolved, backsMatchedOnce, Bool.and_eq_true,
    decide_eq_true_eq, List.all_eq_true, List.mem_range, Bool.or_eq_true, Bool.not_eq_true',
    beq_iff_eq] at h
  obtain ⟨⟨⟨hlen, hopen, hend⟩, hfwd⟩, hback⟩ := h
  refine ⟨hlen, fun i hi => hopen i (by omega), hend, fun i hi => ?_, fun j hj => ?_⟩
  · have := hfwd i (lt_length_of_isForwardAt hi)
    rcases this with h | h
    · rw [hi] at h; cases h
    · cases hm : matchingBack p i with
      | none => simp [hm] at h
      | some j =>
        simp only [hm, Bool.and_eq_true, beq_iff_eq] at h
        have hb := (matchingBack_eq_some.mp hm).1.2.2
        exact ⟨j, rfl, target_of_forward hi h.1, target_of_back hb h.2⟩
  · rcases hback j (lt_length_of_isBackAt hj) with h | h
    · rw [hj] at h; cases h
    · have hpos : 0 < (List.range p.length).countP
          (fun i => isForwardAt p i && matchingBack p i == some j) := by omega
      obtain ⟨i, _, hi⟩ := List.countP_pos_iff.mp hpos
      simp only [Bool.and_eq_true, beq_iff_eq] at hi
      exact ⟨i, hi⟩

/-- Two LoopForwards have different matches, so item 4 of R95 asks for no more than one. -/
theorem matchingBack_inj {i' : Nat} (hf : isForwardAt p i = true) (hf' : isForwardAt p i' = true)
    (hm : matchingBack p i = some j) (hm' : matchingBack p i' = some j) : i = i' := by
  have h1 := (matchingBack_eq_some.mp hm).1
  have h2 := (matchingBack_eq_some.mp hm').1
  rcases Nat.lt_trichotomy i i' with h | h | h
  · have := openCount_inside hf hm h (by omega); omega
  · exact h
  · have := openCount_inside hf' hm' h (by omega); omega

theorem programWf_of_resolved {piw : Nat} (h : Resolved piw p) : programWf piw p = true := by
  simp only [programWf, isBalanced, forwardsResolved, backsMatchedOnce, Bool.and_eq_true,
    decide_eq_true_eq, List.all_eq_true, List.mem_range, Bool.or_eq_true, Bool.not_eq_true',
    beq_iff_eq]
  refine ⟨⟨⟨h.length_le, fun i hi => h.open_nonneg i (by omega), h.open_end⟩, fun i _ => ?_⟩,
    fun j _ => ?_⟩
  · cases hi : isForwardAt p i with
    | false => exact .inl rfl
    | true =>
      obtain ⟨j, hm, h1, h2⟩ := h.forward i hi
      exact .inr (by simp [hm, targetAt, h1, h2, Instr.target])
  · cases hj : isBackAt p j with
    | false => exact .inl rfl
    | true =>
      right
      obtain ⟨i, hi, hm⟩ := h.back j hj
      have hil := lt_length_of_isForwardAt hi
      have : (List.range p.length).countP (fun i => isForwardAt p i && matchingBack p i == some j)
          = (List.range p.length).count i := by
        rw [List.count]
        refine List.countP_congr fun x _ => ?_
        simp only [Bool.and_eq_true, beq_iff_eq]
        exact ⟨fun hx => matchingBack_inj hx.1 hi hx.2 hm, fun hx => hx ▸ ⟨hi, hm⟩⟩
      rw [this, List.count_range, if_pos hil]

/-- The Boolean check and the propositions of R95 agree. -/
theorem programWf_iff {piw : Nat} : programWf piw p = true ↔ Resolved piw p :=
  ⟨resolved_of_programWf, programWf_of_resolved⟩

/-- A target of a loop opcode is the index of an opcode (43_loop_control.md R164). -/
theorem Resolved.target_lt {piw t : Nat} (h : Resolved piw p)
    (hi : p[i]? = some (.loopForward t) ∨ p[i]? = some (.loopBack t)) : t < p.length := by
  rcases hi with hi | hi
  · obtain ⟨j, _, h1, h2⟩ := h.forward i (isForwardAt_iff.mpr ⟨t, hi⟩)
    obtain rfl : j = t := by rw [hi] at h1; simpa using h1.symm
    exact (List.getElem?_eq_some_iff.mp h2).1
  · obtain ⟨k, hk, hm⟩ := h.back i (isBackAt_iff.mpr ⟨t, hi⟩)
    obtain ⟨j, hm', h1, h2⟩ := h.forward k hk
    obtain rfl : j = i := by rw [hm] at hm'; simpa using hm'.symm
    obtain rfl : k = t := by rw [hi] at h2; simpa using h2.symm
    exact (List.getElem?_eq_some_iff.mp h1).1

/-- An image is well-formed when its words fit and its decoded program meets R95. -/
theorem imageWf_iff {piw : Nat} {ws : List Nat} :
    imageWf piw ws = true ↔
      (∀ w ∈ ws, w < 2 ^ (piw + 3)) ∧ Resolved piw (decodeProgram piw ws) := by
  simp only [imageWf, programWf_iff, Bool.and_eq_true, List.all_eq_true, decide_eq_true_eq]
  rfl

theorem decodeProgram_getElem? (piw : Nat) (ws : List Nat) (i : Nat) :
    (decodeProgram piw ws)[i]? = ws[i]?.map (decodeWord piw) := by
  simp [decodeProgram]

@[simp] theorem decodeProgram_length (piw : Nat) (ws : List Nat) :
    (decodeProgram piw ws).length = ws.length := by
  simp [decodeProgram]

/-- In a well-formed image the word at an index decodes to the opcode there. -/
theorem decode_of_imageWf {piw w : Nat} {ws : List Nat} (h : imageWf piw ws = true)
    (hw : ws[i]? = some w) :
    decode piw w = .ok (decodeWord piw w) ∧ (decodeProgram piw ws)[i]? = some (decodeWord piw w) := by
  refine ⟨decode_of_word ((imageWf_iff.mp h).1 w (List.mem_of_getElem? hw)), ?_⟩
  rw [decodeProgram_getElem?, hw]; rfl

/-- In a well-formed image the target of a fetched loop opcode is below `N`. -/
theorem target_lt_of_imageWf {piw w t : Nat} {ws : List Nat} (h : imageWf piw ws = true)
    (hw : ws[i]? = some w)
    (hd : decode piw w = .ok (.loopForward t) ∨ decode piw w = .ok (.loopBack t)) :
    t < ws.length := by
  obtain ⟨h1, h2⟩ := decode_of_imageWf h hw
  rw [h1] at hd
  have := (imageWf_iff.mp h).2.target_lt (i := i) (t := t)
  rw [decodeProgram_length] at this
  apply this
  rcases hd with hd | hd <;> injection hd with hd <;> rw [hd] at h2
  · exact .inl h2
  · exact .inr h2

/-! The nesting depends on the opcodes' codes alone, not on the targets, and on what stands before. -/

theorem isForwardAt_iff_code : isForwardAt p i = true ↔ (p.map Instr.opCode)[i]? = some 6 := by
  rw [isForwardAt_iff, List.getElem?_map]
  cases p[i]? with
  | none => simp
  | some x => cases x <;> simp [Instr.opCode]

theorem isBackAt_iff_code : isBackAt p i = true ↔ (p.map Instr.opCode)[i]? = some 7 := by
  rw [isBackAt_iff, List.getElem?_map]
  cases p[i]? with
  | none => simp
  | some x => cases x <;> simp [Instr.opCode]

theorem countP_forward (p : List Instr) :
    p.countP Instr.isLoopForward = (p.map Instr.opCode).count 6 := by
  rw [List.count, List.countP_map]
  exact List.countP_congr fun x _ => by cases x <;> simp [Instr.opCode, Instr.isLoopForward]

theorem countP_back (p : List Instr) :
    p.countP Instr.isLoopBack = (p.map Instr.opCode).count 7 := by
  rw [List.count, List.countP_map]
  exact List.countP_congr fun x _ => by cases x <;> simp [Instr.opCode, Instr.isLoopBack]

variable {q : List Instr}

theorem isForwardAt_congr (h : p.map Instr.opCode = q.map Instr.opCode) (i : Nat) :
    isForwardAt p i = isForwardAt q i := by
  rw [Bool.eq_iff_iff, isForwardAt_iff_code, isForwardAt_iff_code, h]

theorem isBackAt_congr (h : p.map Instr.opCode = q.map Instr.opCode) (i : Nat) :
    isBackAt p i = isBackAt q i := by
  rw [Bool.eq_iff_iff, isBackAt_iff_code, isBackAt_iff_code, h]

theorem openCount_congr (h : p.map Instr.opCode = q.map Instr.opCode) (i : Nat) :
    openCount p i = openCount q i := by
  unfold openCount
  rw [countP_forward, countP_back, countP_forward, countP_back, List.map_take, List.map_take, h]

theorem matchingBack_congr (h : p.map Instr.opCode = q.map Instr.opCode) :
    matchingBack p i = some j ↔ matchingBack q i = some j := by
  simp only [matchingBack_eq_some, isBackAt_congr h, openCount_congr h]

theorem openCount_append (h : i ≤ p.length) : openCount (p ++ q) i = openCount p i := by
  unfold openCount
  rw [List.take_append_of_le_length h]

theorem isForwardAt_append (h : i < p.length) : isForwardAt (p ++ q) i = isForwardAt p i := by
  unfold isForwardAt
  rw [List.getElem?_append_left h]

theorem isBackAt_append (h : i < p.length) : isBackAt (p ++ q) i = isBackAt p i := by
  unfold isBackAt
  rw [List.getElem?_append_left h]

/-- A match once found stays the match when more opcodes follow. -/
theorem matchingBack_append (q : List Instr) (h : matchingBack p i = some j) :
    matchingBack (p ++ q) i = some j := by
  rw [matchingBack_eq_some] at *
  obtain ⟨⟨h1, h2, h3⟩, h4⟩ := h
  have hj := lt_length_of_isBackAt h3
  rw [openCount_append (by omega), openCount_append (by omega), isBackAt_append hj]
  refine ⟨⟨h1, h2, h3⟩, fun k hk hik ho => ?_⟩
  rw [openCount_append (by omega)] at ho
  rw [isBackAt_append (by omega)]
  exact h4 k hk hik ho

theorem isForwardAt_last {x : Instr} : isForwardAt (p ++ [x]) p.length = x.isLoopForward := by
  simp [isForwardAt]

theorem isBackAt_last {x : Instr} : isBackAt (p ++ [x]) p.length = x.isLoopBack := by
  simp [isBackAt]

theorem openCount_last {x : Instr} :
    openCount (p ++ [x]) (p.length + 1) =
      openCount p p.length + (if x.isLoopForward then 1 else 0) - (if x.isLoopBack then 1 else 0) := by
  rw [openCount_succ (by simp), openCount_append (Nat.le_refl _), isForwardAt_last, isBackAt_last]

/-- Setting a LoopForward's target changes no code. -/
theorem map_opCode_set_forward {n : Nat} (h : isForwardAt p i = true) :
    (p.set i (.loopForward n)).map Instr.opCode = p.map Instr.opCode := by
  obtain ⟨t, ht⟩ := isForwardAt_iff.mp h
  obtain ⟨hl, hv⟩ := List.getElem?_eq_some_iff.mp ht
  rw [List.map_set]
  apply List.ext_getElem?
  intro k
  rw [List.getElem?_set]
  split
  · next hik => subst hik; simp [hl, hv, Instr.opCode]
  · rfl

end Sys2Proof.Machine
end

