-- ==== Sys2Proof/Laws/Step.lean ====
section
/-! SUPPORT. The step by its phases, and the one inversion lemma of `step`. -/

namespace Sys2Proof.Machine

variable {s t : State}

theorem step_held (h : s.rst = true) : step s = .next s.hold := by
  simp [step, State.phase, h]

theorem phase_stopped (h : s.rst = false) (hs : s.status ≠ .running) : s.phase = .stopped := by
  unfold State.phase
  cases hst : s.status <;> simp_all

theorem step_stopped (h : s.rst = false) (hs : s.status ≠ .running) : step s = .next s := by
  simp [step, phase_stopped h hs]

theorem phase_active (h : s.Active) : s.phase = s.fetchPhase := by
  simp [State.phase, h.1, h.2]

theorem fetch_none_iff : s.fetch = none ↔ s.progLen ≤ s.ip := by
  simp [State.fetch, State.progLen]

theorem step_terminal (h : s.Active) (hip : s.progLen ≤ s.ip) : step s = .next s.complete := by
  simp [step, phase_active h, State.fetchPhase, fetch_none_iff.mpr hip]

theorem phase_run {w : Nat} {i : Instr} (h : s.Active) (hw : s.prog[s.ip]? = some w)
    (hi : decode s.piw w = .ok i) : s.phase = .run i := by
  simp [phase_active h, State.fetchPhase, State.fetch, hw, hi]

theorem step_run {w : Nat} {i : Instr} (h : s.Active) (hw : s.prog[s.ip]? = some w)
    (hi : decode s.piw w = .ok i) : step s = exec i s := by
  simp [step, phase_run h hw hi]

/-- Everything a step that answers a next state can have done. -/
theorem step_next_cases (h : step s = .next t) :
    (s.rst = true ∧ t = s.hold) ∨
    (s.rst = false ∧ s.status ≠ .running ∧ t = s) ∨
    (s.Active ∧ s.progLen ≤ s.ip ∧ t = s.complete) ∨
    (s.Active ∧ ∃ w i, s.prog[s.ip]? = some w ∧ decode s.piw w = .ok i ∧ s.phase = .run i ∧
      s.cellAddr < Config.tapeLen ∧ exec i s = .next t ∧ Effect s i t) := by
  cases hr : s.rst with
  | true => rw [step_held hr] at h; cases h; exact .inl ⟨rfl, rfl⟩
  | false =>
    by_cases hs : s.status = .running
    · have hA : s.Active := ⟨hr, hs⟩
      rcases Nat.lt_or_ge s.ip s.progLen with hip | hip
      · obtain ⟨w, hw⟩ : ∃ w, s.prog[s.ip]? = some w := ⟨_, List.getElem?_eq_getElem hip⟩
        cases hd : decode s.piw w with
        | ok i =>
          rw [step_run hA hw hd] at h
          obtain ⟨hdp, he⟩ := exec_next_cases h
          exact .inr (.inr (.inr ⟨hA, w, i, hw, hd, phase_run hA hw hd, hdp, h, he⟩))
        | error e =>
          have : s.phase = .badWord := by
            simp [phase_active hA, State.fetchPhase, State.fetch, hw, hd]
          simp [step, this] at h
      · rw [step_terminal hA hip] at h; cases h
        exact .inr (.inr (.inl ⟨hA, hip, rfl⟩))
    · rw [step_stopped hr hs] at h; cases h
      exact .inr (.inl ⟨rfl, hs, rfl⟩)

/-- A phase that runs an instruction is one of an active block at a word that decodes to it. -/
theorem phase_run_iff {i : Instr} :
    s.phase = .run i ↔ s.Active ∧ ∃ w, s.prog[s.ip]? = some w ∧ decode s.piw w = .ok i := by
  constructor
  · intro h
    cases hr : s.rst with
    | true => simp [State.phase, hr] at h
    | false =>
      by_cases hs : s.status = .running
      · have hA : s.Active := ⟨hr, hs⟩
        rw [phase_active hA] at h
        unfold State.fetchPhase State.fetch at h
        cases hw : s.prog[s.ip]? with
        | none => simp [hw] at h
        | some w =>
          cases hd : decode s.piw w with
          | ok j => simp [hw, hd] at h; subst h; exact ⟨hA, w, rfl, hd⟩
          | error e => simp [hw, hd] at h
      · simp [phase_stopped hr hs] at h
  · rintro ⟨hA, w, hw, hd⟩
    exact phase_run hA hw hd

/-- A run of one more step that answers a state, for any machine behind the host's interface: the step answers
one, and the rest of the run goes on from it. -/
theorem run_succ_next {M : Host.Core} {k : Nat} {s u : M.State} :
    M.run (k + 1) s = .next u ↔ ∃ t, M.step s = .next t ∧ M.run k t = .next u := by
  rw [Host.Core.run]
  constructor
  · intro h
    split at h
    · next t ht => exact ⟨t, ht, h⟩
    · cases h
    · cases h
  · rintro ⟨t, ht, h⟩
    rw [ht]
    exact h

/-- `run_succ_next` for this machine. -/
theorem core_run_succ_next {k : Nat} {s u : State} :
    Sys2Proof.core.run (k + 1) s = .next u ↔
      ∃ t, step s = .next t ∧ Sys2Proof.core.run k t = .next u :=
  run_succ_next (M := Sys2Proof.core)

/-- A state that its step leaves as it is stays so for any number of steps. -/
theorem core_run_of_step_self {s : State} (h : step s = .next s) (k : Nat) :
    Sys2Proof.core.run k s = .next s := by
  induction k with
  | zero => rfl
  | succ k ih => exact core_run_succ_next.mpr ⟨s, h, ih⟩

/-- A well-formed program is no longer than the block supports (R95 item 1). -/
theorem progLen_le_of_inv {s : State} (h : s.Inv) : s.progLen ≤ Config.maxProgLen s.piw := by
  have hlen := (imageWf_iff.mp h.2.1).2.length_le
  rwa [decodeProgram_length] at hlen

end Sys2Proof.Machine
end

