-- ==== Sys2Proof/Laws/Host.lean ====
section
/-! SUPPORT. The one inversion lemma of `hostAct`, and what each action of the host and the collaborators does
where it is not refused. -/

namespace Sys2Proof.Machine

variable {s t : State}

@[simp] theorem inRun_eq_true_iff : s.inRun = true ↔ s.Active := by
  simp [State.inRun, State.Active]

theorem inRun_eq_false_iff : s.inRun = false ↔ s.rst = true ∨ s.status ≠ .running := by
  cases hr : s.rst <;> simp [State.inRun, hr]

theorem settled_of_rst (h : s.rst = true) : s.settled = s.hold := if_pos h

theorem settled_of_released (h : s.rst = false) : s.settled = s := if_neg (by simp [h])

@[simp] theorem State.settled_piw : s.settled.piw = s.piw := by unfold State.settled; split <;> rfl
@[simp] theorem State.settled_prog : s.settled.prog = s.prog := by unfold State.settled; split <;> rfl
@[simp] theorem State.settled_rst : s.settled.rst = s.rst := by unfold State.settled; split <;> rfl
@[simp] theorem State.settled_inAnswers : s.settled.inAnswers = s.inAnswers := by
  unfold State.settled; split <;> rfl
@[simp] theorem State.settled_outAnswers : s.settled.outAnswers = s.outAnswers := by
  unfold State.settled; split <;> rfl
@[simp] theorem State.settled_consumed : s.settled.consumed = s.consumed := by
  unfold State.settled; split <;> rfl
@[simp] theorem State.settled_delivered : s.settled.delivered = s.delivered := by
  unfold State.settled; split <;> rfl

theorem inReq_iff : s.inReq = true ↔ s.phase = .run .input ∧ s.inAnswers = [] := by
  simp [State.inReq]

theorem outReq_iff : s.outReq = true ↔ s.phase = .run .output ∧ s.outAnswers = [] := by
  simp [State.outReq]

/-- A request waits in a run only. -/
theorem active_of_inReq (h : s.inReq = true) : s.Active := (phase_run_iff.mp (inReq_iff.mp h).1).1

theorem active_of_outReq (h : s.outReq = true) : s.Active := (phase_run_iff.mp (outReq_iff.mp h).1).1

/-- An answered In request is the In executed with that answer (20_memory.md R59). -/
theorem answerIn_of_inReq (h : s.inReq = true) (a : InAnswer) :
    answerIn a s = execIn { s with inAnswers := [a] } := by
  obtain ⟨hA, w, hw, hd⟩ := phase_run_iff.mp (inReq_iff.mp h).1
  unfold answerIn
  rw [if_pos h]
  exact step_run (s := { s with inAnswers := [a] }) hA hw hd

/-- An answered Out offer is the Out executed with that answer (20_memory.md R59). -/
theorem answerOut_of_outReq (h : s.outReq = true) (a : OutAnswer) :
    answerOut a s = execOut { s with outAnswers := [a] } := by
  obtain ⟨hA, w, hw, hd⟩ := phase_run_iff.mp (outReq_iff.mp h).1
  unfold answerOut
  rw [if_pos h]
  exact step_run (s := { s with outAnswers := [a] }) hA hw hd

theorem loadImage_eq {ws : List Nat} (h : s.inRun = false) (hw : imageWf s.piw ws = true) :
    loadImage ws s = .next { s.settled with prog := ws } := by
  have hl := (imageWf_iff.mp hw).2.length_le
  rw [decodeProgram_length] at hl
  simp [loadImage, h, hw, Nat.not_lt.mpr hl]

theorem connectPorts_eq (h : s.inRun = false) : connectPorts s =
    .next { s with inAnswers := [], outAnswers := [], consumed := [], delivered := [] } := by
  simp [connectPorts, h]

/-- Everything an action of the host or of a collaborator that is not refused can have done. -/
theorem hostAct_next_cases {a : HostAction} (h : hostAct a s = .next t) :
    (∃ ws, a = .load ws ∧ s.inRun = false ∧ imageWf s.piw ws = true ∧
      t = { s.settled with prog := ws }) ∨
    (a = .connect ∧ s.inRun = false ∧
      t = { s with inAnswers := [], outAnswers := [], consumed := [], delivered := [] }) ∨
    (a = .assertReset ∧ t = { s.hold with rst := true }) ∨
    (a = .releaseReset ∧ t = { s.settled with rst := false }) ∨
    (∃ r, a = .answerInput r ∧ s.inReq = true ∧ step { s with inAnswers := [r] } = .next t) ∨
    (∃ r, a = .answerOutput r ∧ s.outReq = true ∧ step { s with outAnswers := [r] } = .next t) := by
  cases a with
  | load ws =>
    simp only [hostAct, loadImage] at h
    split at h
    · cases h
    · next hr =>
      split at h
      · cases h
      · split at h
        · next hw => cases h; exact .inl ⟨ws, rfl, eq_false_of_ne_true hr, hw, rfl⟩
        · cases h
  | connect =>
    simp only [hostAct, connectPorts] at h
    split at h
    · cases h
    · next hr => cases h; exact .inr (.inl ⟨rfl, eq_false_of_ne_true hr, rfl⟩)
  | assertReset => cases h; exact .inr (.inr (.inl ⟨rfl, rfl⟩))
  | releaseReset => cases h; exact .inr (.inr (.inr (.inl ⟨rfl, rfl⟩)))
  | answerInput r =>
    simp only [hostAct, answerIn] at h
    split at h
    · next hr => exact .inr (.inr (.inr (.inr (.inl ⟨r, rfl, hr, h⟩))))
    · cases h
  | answerOutput r =>
    simp only [hostAct, answerOut] at h
    split at h
    · next hr => exact .inr (.inr (.inr (.inr (.inr ⟨r, rfl, hr, h⟩))))
    · cases h

end Sys2Proof.Machine
end

