-- ==== Sys2Proof/Laws/PerInstr.lean ====
section
/-! SUPPORT. Per-instruction facts: the two fields of an instruction's word. -/

namespace Sys2Proof.Laws.WordFields

/-- The word of an instruction has the instruction's code in bits [2:0] and its target above
(30_encoding.md R80, R102), and it is below `8 * (target + 1)`. -/
def Statement (i : Instr) : Prop :=
  encode i % 8 = i.opCode ∧ encode i / 8 = i.target ∧ encode i < 8 * (i.target + 1)

theorem inc : Statement .inc := by simp [Statement, encode, Instr.target, Instr.opCode]
theorem dec : Statement .dec := by simp [Statement, encode, Instr.target, Instr.opCode]
theorem next : Statement .next := by simp [Statement, encode, Instr.target, Instr.opCode]
theorem prev : Statement .prev := by simp [Statement, encode, Instr.target, Instr.opCode]
theorem input : Statement .input := by simp [Statement, encode, Instr.target, Instr.opCode]
theorem output : Statement .output := by simp [Statement, encode, Instr.target, Instr.opCode]

theorem loopForward (t : Nat) : Statement (.loopForward t) := by
  simp only [Statement, encode, Instr.target, Instr.opCode, Config.opWidth]
  omega

theorem loopBack (t : Nat) : Statement (.loopBack t) := by
  simp only [Statement, encode, Instr.target, Instr.opCode, Config.opWidth]
  omega

end Sys2Proof.Laws.WordFields
end

