-- ==== Sys2Proof/Laws/Translator.lean ====
section
/-! SUPPORT. The translator's parts: what a character becomes, and what each step of the loop-resolution scan
keeps of the opcodes emitted so far and the stack of open loops (30_encoding.md R97, R98). -/

namespace Sys2Proof.Machine

/-- What a character can become: one case per row of R97, or nothing. -/
theorem opcodeOf_cases (c : Char) :
    (c = '+' ∧ opcodeOf c = some .inc) ∨ (c = '-' ∧ opcodeOf c = some .dec) ∨
    (c = '>' ∧ opcodeOf c = some .next) ∨ (c = '<' ∧ opcodeOf c = some .prev) ∨
    (c = ',' ∧ opcodeOf c = some .input) ∨ (c = '.' ∧ opcodeOf c = some .output) ∨
    (c = '[' ∧ opcodeOf c = some (.loopForward 0)) ∨
    (c = ']' ∧ opcodeOf c = some (.loopBack 0)) ∨
    (isSignificant c = false ∧ opcodeOf c = none) := by
  unfold opcodeOf
  split
  · next h => exact .inl ⟨h, rfl⟩
  split
  · next h => exact .inr (.inl ⟨h, rfl⟩)
  split
  · next h => exact .inr (.inr (.inl ⟨h, rfl⟩))
  split
  · next h => exact .inr (.inr (.inr (.inl ⟨h, rfl⟩)))
  split
  · next h => exact .inr (.inr (.inr (.inr (.inl ⟨h, rfl⟩))))
  split
  · next h => exact .inr (.inr (.inr (.inr (.inr (.inl ⟨h, rfl⟩)))))
  split
  · next h => exact .inr (.inr (.inr (.inr (.inr (.inr (.inl ⟨h, rfl⟩))))))
  split
  · next h => exact .inr (.inr (.inr (.inr (.inr (.inr (.inr (.inl ⟨h, rfl⟩)))))))
  next h1 h2 h3 h4 h5 h6 h7 h8 =>
    refine .inr (.inr (.inr (.inr (.inr (.inr (.inr (.inr ⟨?_, rfl⟩)))))))
    simp only [isSignificant, beq_eq_false_iff_ne.mpr h1, beq_eq_false_iff_ne.mpr h2,
      beq_eq_false_iff_ne.mpr h3, beq_eq_false_iff_ne.mpr h4, beq_eq_false_iff_ne.mpr h5,
      beq_eq_false_iff_ne.mpr h6, beq_eq_false_iff_ne.mpr h7, beq_eq_false_iff_ne.mpr h8,
      Bool.or_false]

/-- The stack lists open LoopForwards, innermost first: the count at each is the number of loops around it,
and has stayed above that ever since. -/
def OpenStack (out : List Instr) : List Nat → Prop
  | [] => True
  | i :: st =>
    isForwardAt out i = true ∧ openCount out i = st.length ∧
      (∀ x, i < x → x ≤ out.length → openCount out i + 1 ≤ openCount out x) ∧ OpenStack out st

/-- What the scan keeps: the loops not on the stack are resolved as R95 asks. -/
structure ScanInvariant (out : List Instr) (stack : List Nat) : Prop where
  nonneg : ∀ i, i ≤ out.length → 0 ≤ openCount out i
  count : openCount out out.length = stack.length
  stack_open : OpenStack out stack
  forward : ∀ i, isForwardAt out i = true → i ∈ stack ∨
    ∃ j, matchingBack out i = some j ∧ out[i]? = some (.loopForward j) ∧
      out[j]? = some (.loopBack i)
  back : ∀ j, isBackAt out j = true → ∃ i, isForwardAt out i = true ∧ matchingBack out i = some j

theorem OpenStack.append {out : List Instr} {st : List Nat} (x : Instr) (h : OpenStack out st)
    (hx : ∀ d : Nat, d < st.length → (d : Int) + 1 ≤ openCount (out ++ [x]) (out.length + 1)) :
    OpenStack (out ++ [x]) st := by
  induction st with
  | nil => trivial
  | cons i st ih =>
    obtain ⟨h1, h2, h3, h4⟩ := h
    have hi := lt_length_of_isForwardAt h1
    refine ⟨by rw [isForwardAt_append hi]; exact h1,
      by rw [openCount_append (by omega)]; exact h2, ?_,
      ih h4 fun d hd => hx d (by simp; omega)⟩
    intro y hy hyl
    rw [openCount_append (by omega)]
    rcases Nat.lt_or_ge out.length y with h | h
    · simp at hyl
      obtain rfl : y = out.length + 1 := by omega
      have := hx st.length (by simp)
      omega
    · rw [openCount_append h]; exact h3 y hy h

theorem OpenStack.congr {p q : List Instr} (h : p.map Instr.opCode = q.map Instr.opCode)
    {st : List Nat} (hs : OpenStack p st) : OpenStack q st := by
  have hl : p.length = q.length := by simpa using congrArg List.length h
  induction st with
  | nil => trivial
  | cons i st ih =>
    obtain ⟨h1, h2, h3, h4⟩ := hs
    simp only [OpenStack, ← isForwardAt_congr h, ← openCount_congr h, ← hl]
    exact ⟨h1, h2, h3, ih h4⟩

theorem scanInvariant_nil : ScanInvariant [] [] := by
  refine ⟨by simp [openCount], by simp [openCount], trivial, ?_, ?_⟩ <;> intro i hi <;>
    simp [isForwardAt, isBackAt] at hi

/-- The resolved loops of `out` stay resolved when an opcode is added. -/
theorem ScanInvariant.forward_append {out : List Instr} {stack : List Nat}
    (h : ScanInvariant out stack) (x : Instr) {i : Nat} (hil : i < out.length)
    (hi : isForwardAt (out ++ [x]) i = true) :
    i ∈ stack ∨ ∃ j, matchingBack (out ++ [x]) i = some j ∧
      (out ++ [x])[i]? = some (.loopForward j) ∧ (out ++ [x])[j]? = some (.loopBack i) := by
  rw [isForwardAt_append hil] at hi
  rcases h.forward i hi with h1 | ⟨j, h1, h2, h3⟩
  · exact .inl h1
  · have hj := (List.getElem?_eq_some_iff.mp h3).1
    exact .inr ⟨j, matchingBack_append _ h1, by rw [List.getElem?_append_left hil]; exact h2,
      by rw [List.getElem?_append_left hj]; exact h3⟩

theorem ScanInvariant.back_append {out : List Instr} {stack : List Nat}
    (h : ScanInvariant out stack) (x : Instr) {j : Nat} (hjl : j < out.length)
    (hj : isBackAt (out ++ [x]) j = true) :
    ∃ i, isForwardAt (out ++ [x]) i = true ∧ matchingBack (out ++ [x]) i = some j := by
  rw [isBackAt_append hjl] at hj
  obtain ⟨i, h1, h2⟩ := h.back j hj
  exact ⟨i, by rw [isForwardAt_append (lt_length_of_isForwardAt h1)]; exact h1,
    matchingBack_append _ h2⟩

theorem ScanInvariant.nonneg_append {out : List Instr} {stack : List Nat}
    (h : ScanInvariant out stack) {x : Instr}
    (hlast : 0 ≤ openCount (out ++ [x]) (out.length + 1)) :
    ∀ i, i ≤ (out ++ [x]).length → 0 ≤ openCount (out ++ [x]) i := by
  intro i hi
  simp at hi
  rcases Nat.lt_or_ge out.length i with hh | hh
  · obtain rfl : i = out.length + 1 := by omega
    exact hlast
  · rw [openCount_append hh]; exact h.nonneg i hh

/-- An opcode without a payload leaves the open loops open. -/
theorem ScanInvariant.append_plain {out : List Instr} {stack : List Nat}
    (h : ScanInvariant out stack) {x : Instr} (hf : x.isLoopForward = false)
    (hb : x.isLoopBack = false) : ScanInvariant (out ++ [x]) stack := by
  have hlast : openCount (out ++ [x]) (out.length + 1) = stack.length := by
    rw [openCount_last, hf, hb, h.count]; simp
  refine ⟨h.nonneg_append (by omega), by simpa using hlast,
    h.stack_open.append x fun d hd => by rw [hlast]; omega, ?_, ?_⟩
  · intro i hi
    have hl := lt_length_of_isForwardAt hi
    simp at hl
    rcases Nat.lt_or_ge i out.length with hh | hh
    · exact h.forward_append x hh hi
    · obtain rfl : i = out.length := by omega
      rw [isForwardAt_last, hf] at hi; cases hi
  · intro j hj
    have hl := lt_length_of_isBackAt hj
    simp at hl
    rcases Nat.lt_or_ge j out.length with hh | hh
    · exact h.back_append x hh hj
    · obtain rfl : j = out.length := by omega
      rw [isBackAt_last, hb] at hj; cases hj

/-- A LoopForward opens a loop: its index goes on the stack. -/
theorem ScanInvariant.push {out : List Instr} {stack : List Nat} (h : ScanInvariant out stack)
    (t : Nat) : ScanInvariant (out ++ [.loopForward t]) (out.length :: stack) := by
  have hlast : openCount (out ++ [.loopForward t]) (out.length + 1) = stack.length + 1 := by
    rw [openCount_last, h.count]; simp [Instr.isLoopForward, Instr.isLoopBack]
  refine ⟨h.nonneg_append (by omega), by simpa using hlast, ?_, ?_, ?_⟩
  · refine ⟨isForwardAt_last, by rw [openCount_append (Nat.le_refl _)]; exact h.count, ?_,
      h.stack_open.append _ fun d hd => by rw [hlast]; omega⟩
    intro x hx hxl
    simp at hxl
    obtain rfl : x = out.length + 1 := by omega
    rw [hlast, openCount_append (Nat.le_refl _), h.count]
  · intro i hi
    have hl := lt_length_of_isForwardAt hi
    simp at hl
    rcases Nat.lt_or_ge i out.length with hh | hh
    · rcases h.forward_append _ hh hi with h1 | h1
      · exact .inl (List.mem_cons_of_mem _ h1)
      · exact .inr h1
    · obtain rfl : i = out.length := by omega
      exact .inl (by simp)
  · intro j hj
    have hl := lt_length_of_isBackAt hj
    simp at hl
    rcases Nat.lt_or_ge j out.length with hh | hh
    · exact h.back_append _ hh hj
    · obtain rfl : j = out.length := by omega
      rw [isBackAt_last] at hj; cases hj

/-- A LoopBack closes the innermost open loop: the two targets name each other, and the LoopBack is the
LoopForward's match. -/
theorem ScanInvariant.pop {out : List Instr} {i : Nat} {st : List Nat}
    (h : ScanInvariant out (i :: st)) :
    ScanInvariant (out.set i (.loopForward out.length) ++ [.loopBack i]) st := by
  obtain ⟨hi, hcount, hin, hst⟩ := h.stack_open
  have hil := lt_length_of_isForwardAt hi
  set q := out.set i (.loopForward out.length) with hq
  have hc : out.map Instr.opCode = q.map Instr.opCode := (map_opCode_set_forward hi).symm
  have hql : q.length = out.length := by simp [hq]
  have hcnt : openCount q q.length = st.length + 1 := by
    rw [← openCount_congr hc, hql, h.count]; simp
  have hlast : openCount (q ++ [.loopBack i]) (q.length + 1) = st.length := by
    rw [openCount_last, hcnt]; simp [Instr.isLoopForward, Instr.isLoopBack]
  have hqi : q[i]? = some (.loopForward out.length) := by rw [hq, List.getElem?_set_self hil]
  have hmi : matchingBack (q ++ [.loopBack i]) i = some out.length := by
    rw [matchingBack_eq_some]
    refine ⟨⟨hil, ?_, ?_⟩, ?_⟩
    · rw [← hql, hlast, openCount_append (by omega), ← openCount_congr hc, hcount]
    · rw [← hql, isBackAt_last]; rfl
    · intro k hk hik ho
      rw [openCount_append (by omega), openCount_append (by omega), ← openCount_congr hc,
        ← openCount_congr hc] at ho
      have := hin (k + 1) (by omega) (by omega)
      omega
  refine ⟨?_, by simpa using hlast, (hst.congr hc).append _ fun d hd => by rw [hlast]; omega,
    ?_, ?_⟩
  · intro k hk
    simp at hk
    rcases Nat.lt_or_ge q.length k with hh | hh
    · obtain rfl : k = q.length + 1 := by omega
      rw [hlast]; omega
    · rw [openCount_append hh, ← openCount_congr hc]; exact h.nonneg k (by omega)
  · intro k hk
    have hl := lt_length_of_isForwardAt hk
    simp at hl
    rcases Nat.lt_or_ge k q.length with hh | hh
    · rw [isForwardAt_append hh, ← isForwardAt_congr hc] at hk
      by_cases hki : k = i
      · subst hki
        exact .inr ⟨out.length, hmi, by rw [List.getElem?_append_left hh]; exact hqi,
          by rw [← hql]; simp⟩
      · rcases h.forward k hk with h1 | ⟨j, h1, h2, h3⟩
        · exact .inl ((List.mem_cons.mp h1).resolve_left hki)
        · have hj := (List.getElem?_eq_some_iff.mp h3).1
          have hji : j ≠ i := by
            rintro rfl
            obtain ⟨t, ht⟩ := isForwardAt_iff.mp hi
            rw [ht] at h3; cases h3
          refine .inr ⟨j, matchingBack_append _ ((matchingBack_congr hc).mp h1), ?_, ?_⟩
          · rw [List.getElem?_append_left hh, hq, List.getElem?_set_ne (Ne.symm hki)]; exact h2
          · rw [List.getElem?_append_left (by omega), hq, List.getElem?_set_ne (Ne.symm hji)]
            exact h3
    · obtain rfl : k = q.length := by omega
      rw [isForwardAt_last] at hk; cases hk
  · intro j hj
    have hl := lt_length_of_isBackAt hj
    simp at hl
    rcases Nat.lt_or_ge j q.length with hh | hh
    · rw [isBackAt_append hh, ← isBackAt_congr hc] at hj
      obtain ⟨k, h1, h2⟩ := h.back j hj
      rw [isForwardAt_congr hc] at h1
      exact ⟨k, by rw [isForwardAt_append (lt_length_of_isForwardAt h1)]; exact h1,
        matchingBack_append _ ((matchingBack_congr hc).mp h2)⟩
    · obtain rfl : j = q.length := by omega
      exact ⟨i, by rw [isForwardAt_append (by omega), ← isForwardAt_congr hc]; exact hi,
        by rw [hql]; exact hmi⟩

end Sys2Proof.Machine
end

