-- ==== Sys2Proof/Tests/Slice0.lean ====
section
/-! SUPPORT. The model's own tests: words and results taken from spec/95_test_vectors.md or worked from the
rules by hand, each about one step; and, for every obligation with hypotheses, a witness that meets them. -/

namespace Sys2Proof.Tests

open Sys2Proof.Machine

/-! ## Helpers -/

/-- The next state of a result, if it is one. -/
def nextOf : Result → Option State
  | .next s => some s
  | .fault _ => none
  | .refused _ => none

/-- The refusal of a result, if it is one. -/
def refusalOf : Result → Option Refusal
  | .refused r => some r
  | .next _ => none
  | .fault _ => none

/-- A RUNNING block at index width 16 with a program, `ip`, `dp` and tape. -/
def at16 (prog : List Nat) (ip : Nat) (dp : BitVec 15) (tape : Memory) : State :=
  { State.reset with prog := prog, ip := ip, dp := dp, tape := tape }

/-- The same block with port answers. -/
def withAnswers (s : State) (ins : List InAnswer) (outs : List OutAnswer) : State :=
  { s with inAnswers := ins, outAnswers := outs }

/-- The tape, dp, ip and status of the next state. -/
def core4 (r : Result) : Option (Memory × BitVec 15 × Nat × Status) :=
  (nextOf r).map fun s => (s.tape, s.dp, s.ip, s.status)

/-- The program `,[.,]` of V-L1-6. -/
def copyProgram : List Nat := [0x04, 0x26, 0x05, 0x04, 0x0F]

/-! ## Well-formedness: an ill-formed term for each check -/

theorem test_wf_forward_target_too_wide : ¬ (Instr.loopForward 0x10000).WellFormed 16 := by decide
theorem test_wf_back_target_too_wide : ¬ (Instr.loopBack 2).WellFormed 1 := by decide
theorem test_wf_largest_target : (Instr.loopForward 0xFFFF).WellFormed 16 := by decide

/-- R95 item 1: two opcodes are too many at `P_IW` = 1. -/
theorem test_image_too_long : imageWf 1 [0, 0] = false := by decide
/-- R95 item 2: a LoopBack first. -/
theorem test_image_back_first : imageWf 16 [0x0F, 0x06] = false := by decide
/-- R95 item 2: a LoopForward left open. -/
theorem test_image_left_open : imageWf 16 [0x06] = false := by decide
/-- R95 item 3: a LoopForward whose target is not its match. -/
theorem test_image_wrong_forward_target : imageWf 16 [0x06, 0x07] = false := by decide
/-- R95 item 3: a LoopBack whose target is not its match. -/
theorem test_image_wrong_back_target : imageWf 16 [0x0E, 0x0F] = false := by decide
/-- R95 items 3 and 4: `[[]]` with the two LoopBack targets exchanged. -/
theorem test_image_crossed : imageWf 16 [0x1E, 0x16, 0x07, 0x0F] = false := by decide
/-- A number of 20 bits is no word at `P_IW` = 16. -/
theorem test_image_wide_word : imageWf 16 [0x80000] = false := by decide
/-- The `tgt` bits of the six opcodes without a payload are not constrained (R95, R84). -/
theorem test_image_reserved_bits_free : imageWf 16 [0x18, 0x7FFF9] = true := by decide
/-- `[[]]`, V-L1-2. -/
theorem test_image_nested : imageWf 16 [0x1E, 0x16, 0x0F, 0x07] = true := by decide
/-- The canonical form of the tape refuses disorder, a repeat, a listed zero, and an index off the tape. -/
theorem test_tape_form :
    Memory.wf [(5, 1), (4, 1)] = false ∧ Memory.wf [(5, 1), (5, 2)] = false ∧
      Memory.wf [(5, 0)] = false ∧ Memory.wf [(30000, 1)] = false ∧
      Memory.wf [(0, 1), (29999, 255)] = true := by decide

/-! ## Decoding: words written out from 30_encoding.md R80, R82 and the decoder table of 95_test_vectors.md -/

theorem test_decode_inc : decode 16 0b0000000000000000000 = .ok .inc := by decide
theorem test_decode_inc_reserved_bits : decode 16 0b0000000000000011000 = .ok .inc := by decide
theorem test_decode_dec : decode 16 0b1111111111111111001 = .ok .dec := by decide
theorem test_decode_next : decode 16 0b0000000000000000010 = .ok .next := by decide
theorem test_decode_prev : decode 16 0b0000000000000000011 = .ok .prev := by decide
theorem test_decode_in : decode 16 0b0000000000000000100 = .ok .input := by decide
theorem test_decode_out : decode 16 0b0000000000000000101 = .ok .output := by decide
theorem test_decode_forward : decode 16 0b0000000000000101110 = .ok (.loopForward 5) := by decide
theorem test_decode_forward_largest :
    decode 16 0b1111111111111110110 = .ok (.loopForward 0xFFFE) := by decide
theorem test_decode_back : decode 16 0b0000000000000001111 = .ok (.loopBack 1) := by decide
theorem test_decode_other_width : decode 3 0b101111 = .ok (.loopBack 5) := by decide
theorem test_decode_wide : decode 16 0x80000 = .error .wordTooWide := by decide
/-- The six loop words of the Hello program, V-L1-7. -/
theorem test_decode_hello_loops :
    [0x186, 0x10E, 0x77, 0x16E, 0x15F, 0x47].map (decodeWord 16) =
      [.loopForward 48, .loopForward 33, .loopBack 14, .loopForward 45, .loopBack 43, .loopBack 8] := by
  decide
theorem test_encode_forward : encode (.loopForward 48) = 0x186 := by decide
theorem test_encode_dec : encode .dec = 0x00001 := by decide
/-- The table's eight rows, in bytes: every bit above the code is 0. -/
theorem test_decodeTableWord :
    (List.range 8).map (decodeTableWord 8) =
      [some .inc, some .dec, some .next, some .prev, some .input, some .output,
        some (.loopForward 0), some (.loopBack 0)] := by decide

/-! ## The opcodes: 95_test_vectors.md part 2 and the examples of the opcode rules -/

/-- R120 example: cell 7 at 0xFF wraps to 0, and its entry goes. -/
theorem test_inc_wraps :
    core4 (exec .inc (at16 [0] 0 7 [(7, 0xFF)])) = some ([], 7, 1, .running) := by decide
theorem test_inc_carries :
    core4 (exec .inc (at16 [0] 0 0 [(0, 0x7F), (3, 9)])) =
      some ([(0, 0x80), (3, 9)], 0, 1, .running) := by decide
/-- R121 example: cell 0 at 0 wraps to 0xFF. -/
theorem test_dec_wraps :
    core4 (exec .dec (at16 [1] 0 0 [])) = some ([(0, 0xFF)], 0, 1, .running) := by decide
theorem test_dec_to_zero :
    core4 (exec .dec (at16 [1] 0 29999 [(29999, 1)])) = some ([], 29999, 1, .running) := by decide
theorem test_next_wraps :
    core4 (exec .next (at16 [2] 0 29999 [(4, 4)])) = some ([(4, 4)], 0, 1, .running) := by decide
theorem test_next_below_wrap :
    core4 (exec .next (at16 [2] 0 29998 [])) = some ([], 29999, 1, .running) := by decide
theorem test_prev_wraps :
    core4 (exec .prev (at16 [3] 0 0 [])) = some ([], 29999, 1, .running) := by decide
theorem test_prev_one :
    core4 (exec .prev (at16 [3] 0 1 [])) = some ([], 0, 1, .running) := by decide
/-- R140 example. -/
theorem test_in_byte :
    (nextOf (exec .input (withAnswers (at16 [4] 0 3 [(3, 0x10)]) [.byte 0x41, .error] []))).map
        (fun s => (s.tape, s.ip, s.inAnswers, s.consumed)) =
      some ([(3, 0x41)], 1, [.error], [0x41]) := by decide
theorem test_in_exhausted_and_error :
    (nextOf (exec .input (withAnswers (at16 [4] 0 3 [(3, 0x37)]) [.exhausted] []))).map
        (fun s => (s.tape, s.ip, s.status, s.consumed)) = some ([], 1, .running, []) ∧
      core4 (exec .input (withAnswers (at16 [4] 0 3 [(3, 0x37)]) [.error] [])) =
        some ([(3, 0x37)], 3, 0, .inputFailure) := by decide
theorem test_out_accepted :
    (nextOf (exec .output (withAnswers (at16 [5] 0 0 [(0, 0x48)]) [] [.accepted]))).map
        (fun s => (s.ip, s.status, s.delivered, s.outAnswers)) =
      some (1, .running, [0x48], []) := by decide
theorem test_out_rejected :
    (nextOf (exec .output (withAnswers (at16 [5] 0 0 [(0, 0x48)]) [] [.rejected]))).map
        (fun s => (s.ip, s.status, s.delivered)) = some (0, .outputFailure, []) := by decide
/-- R160 example: word 0x00016 at ip 0 jumps to 3 on a zero cell. -/
theorem test_forward_jumps :
    core4 (exec (.loopForward 2) (at16 [0x16, 0, 0x07] 0 0 [])) = some ([], 0, 3, .running) := by
  decide
theorem test_forward_enters :
    core4 (exec (.loopForward 2) (at16 [0x16, 0, 0x07] 0 0 [(0, 5)])) =
      some ([(0, 5)], 0, 1, .running) := by decide
/-- R161 example: at ip 4 with target 1 the jump goes to 2. -/
theorem test_back_jumps :
    core4 (exec (.loopBack 1) (at16 copyProgram 4 0 [(0, 0x41)])) =
      some ([(0, 0x41)], 0, 2, .running) := by decide
theorem test_back_falls_through :
    core4 (exec (.loopBack 1) (at16 copyProgram 4 0 [])) = some ([], 0, 5, .running) := by decide

/-! ## Steps, host actions, translator -/

/-- V-L1-1: an empty program completes at its first step. -/
theorem test_empty_program : core4 (step State.reset) = some ([], 0, 0, .done) := by decide
/-- An In with no answer waits, and `in_req` is 1 (R35, R59). -/
theorem test_in_waits :
    nextOf (step (at16 [4] 0 0 [])) = some (at16 [4] 0 0 []) ∧
      (at16 [4] 0 0 []).outPins.inReq = true := by decide
/-- `ip` reaches 2^P_IW − 1 = N without a wrap (95_test_vectors.md, step table, at `P_IW` = 2). -/
theorem test_ip_largest :
    (nextOf (step { at16 [0, 0, 0] 2 0 [] with piw := 2 })).map (·.ip) = some 3 := by decide
theorem test_reset_held :
    core4 (step { at16 [0] 1 5 [(2, 2)] with rst := true, status := .done }) =
      some ([], 0, 0, .running) := by decide
theorem test_withFetchWord_runs :
    (nextOf (step (State.reset.withFetchWord 8 1))).map (·.tape) = some [(0, 0xFF)] ∧
      (nextOf (step (State.reset.withFetchWord 8 6))).map (·.ip) = some 1 := by decide
theorem test_load_refusals :
    refusalOf (hostAct (.load []) State.reset) = some .duringRun ∧
      refusalOf (hostAct (.load [6]) { State.reset with rst := true }) = some .malformedImage ∧
      refusalOf (hostAct (.load [0, 0]) { State.resetFor 1 with rst := true }) =
        some .imageTooLong := by decide
theorem test_load_copyProgram :
    (nextOf (hostAct (.load copyProgram) { State.reset with rst := true })).map (·.prog) =
      some copyProgram := by decide
/-- R212 item 2, R215: after DONE the next program is loaded, and the final tape, dp and ip stay. -/
theorem test_load_after_done :
    let s := { at16 [0] 1 5 [(5, 1)] with status := .done }
    nextOf (hostAct (.load copyProgram) s) = some { s with prog := copyProgram } := by decide
/-- R219: an answer with no request there, and a second answer to one request, are refused; here the In is
followed by a LoopForward. -/
theorem test_answer_refusals :
    refusalOf (hostAct (.answerInput .exhausted) (at16 [0] 0 0 [])) = some .noRequest ∧
      (nextOf (hostAct (.answerInput (.byte 7)) (at16 copyProgram 0 0 []))).map
        (fun t => (t.tape, t.ip, refusalOf (hostAct (.answerInput (.byte 8)) t))) =
          some ([(0, 7)], 1, some .noRequest) := by decide
/-- U11: off the tape every opcode faults; here one that reads no cell. -/
theorem test_dp_out_of_range : nextOf (exec .next (at16 [2] 0 30000 [])) = none := by decide
/-- V-L1-2 and `,[.,]` of V-L1-6, with comments. -/
theorem test_assemble :
    assemble ['[', '[', ']', ']'] = .ok [0x1E, 0x16, 0x0F, 0x07] ∧
      assemble [',', ' ', '[', '.', 'x', ',', ']', '\n'] = .ok copyProgram := by decide
/-- V-L1-3. -/
theorem test_unmatched :
    assemble [']'] = .error (.unmatchedLoopEnd 0) ∧
      assemble ['['] = .error (.unmatchedLoopStart [0]) ∧
      assemble ['[', '[', ']'] = .error (.unmatchedLoopStart [0]) ∧
      assemble ['[', ']', ']'] = .error (.unmatchedLoopEnd 2) := by decide
/-- The codes of the eight symbols (R97). -/
theorem test_symbol_codes :
    ['+', '-', '>', '<', ',', '.', '[', ']'].map Char.toNat =
      [0x2B, 0x2D, 0x3E, 0x3C, 0x2C, 0x2E, 0x5B, 0x5D] := by decide

/-! ## Witnesses: for each obligation with hypotheses, a case that meets them -/

/-- The copy program at its In with one byte there, as a host leaves it. -/
def copyState : State := withAnswers (at16 copyProgram 0 0 []) [.byte 0x41] [.accepted]

theorem copyState_inv : copyState.Inv := by decide
theorem copyState_active : copyState.Active := by decide

theorem test_witness_ResetReinitialisesTheBlock :
    (∃ s : State, s.rst = true ∧ s.prog = []) ∧
      ∃ (s : State) (w : Nat) (i : Instr), s.rst = true ∧ s.prog[0]? = some w ∧
        decode s.piw w = .ok i :=
  ⟨⟨{ State.reset with rst := true }, rfl, rfl⟩,
    { copyState with rst := true }, 4, .input, rfl, rfl, by decide⟩

theorem test_witness_StepChecksFetchesAndExecutes :
    (State.reset.Active ∧ State.reset.progLen = 0 ∧ State.reset.progLen ≤ State.reset.ip) ∧
      ((at16 copyProgram 5 0 []).Active ∧ (at16 copyProgram 5 0 []).progLen ≤ 5) ∧
      copyState.Active ∧ copyState.ip < copyState.progLen ∧
      copyState.prog[copyState.ip]? = some 4 ∧ decode copyState.piw 4 = .ok .input := by decide

theorem test_witness_StoppedBlockTakesNoStep :
    ({ copyState with status := .inputFailure } : State).rst = false ∧
      ({ copyState with status := .inputFailure } : State).status ≠ .running := by decide

theorem test_witness_OnlyResetRestarts :
    ∃ s t u : State, step s = .next t ∧ s.status ≠ .running ∧ t.status = .running ∧
      hostAct .assertReset s = .next u ∧ u.status = .running :=
  ⟨{ copyState with rst := true, status := .done }, _, _, rfl, by decide, rfl, rfl, rfl⟩

theorem test_witness_EveryWordDecodes :
    (0x7FFFF < 2 ^ (16 + 3) ∧ 0x7FFFF % 8 = 7) ∧ (0x7FFFE < 2 ^ (16 + 3) ∧ 0x7FFFE % 8 = 6) ∧
      2 ^ (16 + 3) ≤ 0x80000 := by decide

theorem test_witness_ReservedFieldIgnored :
    ∃ (s t : State) (i : Instr), 0x7FFFD < 2 ^ (16 + 3) ∧ 0x5 < 2 ^ (16 + 3) ∧
      0x7FFFD % 8 = 0x5 % 8 ∧ 0x7FFFD % 8 < 6 ∧ decode 16 0x7FFFD = .ok i ∧ s.Active ∧
      s.piw = 16 ∧ s.prog[s.ip]? = some 0x7FFFD ∧ step s = .next t :=
  ⟨withAnswers (at16 [0x7FFFD] 0 29999 []) [] [.accepted], _, .output, by decide, by decide, rfl,
    by decide, by decide, by decide, rfl, rfl, rfl⟩

theorem test_witness_DecodeOfEncode :
    (Instr.loopForward 0xFFFF).WellFormed 16 ∧ (Instr.loopBack 0).WellFormed 1 ∧
      Instr.inc.WellFormed 1 := by decide

theorem test_witness_EncodeOfDecode :
    (decode 16 0x7FFFE = .ok (.loopForward 0xFFFF) ∧ 6 ≤ 0x7FFFE % 8) ∧
      decode 16 0x18 = .ok .inc ∧ 0x18 % 8 < 6 := by decide

/-- Inc, Dec, Next and Prev at the wrap of the cell and of the data pointer. -/
theorem test_witness_arith_and_moves :
    let s := at16 [0] 0 29999 [(29999, 0xFF)]
    s.Executing ∧ s.tape.wf = true ∧ s.cellAddr < Config.tapeLen := by decide

theorem test_witness_InReadsOneByte :
    let s := at16 [4] 0 29999 [(29999, 0x37)]
    s.Executing ∧ s.tape.wf = true ∧ s.cellAddr < Config.tapeLen ∧ s.inAnswers = [] ∧
      (withAnswers s [.byte 0xFF] []).inAnswers = .byte 0xFF :: [] ∧
      (withAnswers s [.exhausted] []).inAnswers = .exhausted :: [] ∧
      (withAnswers s [.error] []).inAnswers = .error :: [] := by decide

theorem test_witness_OutWritesOneByte :
    let s := at16 [5] 0 0 [(0, 0xFF)]
    s.Executing ∧ s.cellAddr < Config.tapeLen ∧ s.outAnswers = [] ∧
      (withAnswers s [] [.accepted]).outAnswers = .accepted :: [] ∧
      (withAnswers s [] [.rejected]).outAnswers = .rejected :: [] := by decide

/-- Both loop opcodes, on a zero and on a nonzero cell, with the last index as LoopForward's target and an
empty loop's LoopBack. -/
theorem test_witness_loops :
    let z := at16 [0x0E, 0x07] 0 0 []
    let n := at16 [0x0E, 0x07] 1 0 [(0, 1)]
    z.Executing ∧ z.Active ∧ 1 < z.progLen ∧ z.readCell = 0 ∧ 1 + 1 = z.progLen ∧
      n.Executing ∧ 0 < n.progLen ∧ n.readCell ≠ 0 ∧ 0 + 1 = n.ip := by decide

theorem test_witness_loop_words :
    (0x7FFF6 < 2 ^ (16 + 3) ∧ 0x7FFF6 % 8 = 0b110) ∧ 0xF < 2 ^ (16 + 3) ∧ 0xF % 8 = 0b111 := by
  decide

/-- Every opcode answers a next state somewhere; In with Error and Out with Rejected too. -/
theorem test_witness_frames :
    (∃ t, exec .inc copyState = .next t) ∧ (∃ t, exec .dec copyState = .next t) ∧
      (∃ t, exec .input copyState = .next t) ∧ (∃ t, exec .next copyState = .next t) ∧
      (∃ t, exec .prev copyState = .next t) ∧ (∃ t, exec .output copyState = .next t) ∧
      (∃ t, exec (.loopForward 4) copyState = .next t) ∧
      (∃ t, exec (.loopBack 1) copyState = .next t) ∧
      (∃ t, exec .input (withAnswers copyState [.error] []) = .next t ∧ t.status = .inputFailure) ∧
      (∃ t, exec .output (withAnswers copyState [] [.rejected]) = .next t ∧
        t.status = .outputFailure) :=
  ⟨⟨_, rfl⟩, ⟨_, rfl⟩, ⟨_, rfl⟩, ⟨_, rfl⟩, ⟨_, rfl⟩, ⟨_, rfl⟩, ⟨_, rfl⟩, ⟨_, rfl⟩,
    ⟨_, rfl, rfl⟩, ⟨_, rfl, rfl⟩⟩

/-- `dp` at the last cell, and at the first value beyond it. -/
theorem test_witness_OpcodesStopOnlyOffTheTape :
    (at16 [] 0 29999 []).cellAddr < Config.tapeLen ∧
      Config.tapeLen ≤ (at16 [] 0 30000 []).cellAddr := by decide

theorem test_witness_InvariantAtReset : 1 ≤ 1 ∧ (State.resetFor 1).Inv := by decide

theorem test_witness_StepKeepsTheInvariant : ∃ s t : State, s.Inv ∧ step s = .next t :=
  ⟨copyState, _, copyState_inv, rfl⟩

theorem test_witness_StepNeverStopsUnderTheInvariant : copyState.Inv := copyState_inv

/-- A load under reset, a load of a shorter program after DONE, and an answer to a waiting In. -/
theorem test_witness_HostActionsKeepTheInvariant :
    (∃ (s t : State), s.Inv ∧ hostAct (.load copyProgram) s = .next t) ∧
      (∃ (s t : State), s.Inv ∧ s.status = .done ∧ hostAct (.load [0]) s = .next t ∧
        t.progLen < t.ip) ∧
      ∃ (s t : State), s.Inv ∧ hostAct (.answerInput .exhausted) s = .next t :=
  ⟨⟨{ State.reset with rst := true }, _, by decide, rfl⟩,
    ⟨{ at16 copyProgram 5 0 [] with status := .done }, _, by decide, rfl, rfl, by decide⟩,
    at16 copyProgram 0 0 [], _, by decide, rfl⟩

theorem test_witness_EveryHistoryIsSafe :
    ∃ t, runEvents [.host .assertReset, .host (.load copyProgram), .host .connect,
      .host .releaseReset, .host (.answerInput (.byte 0x41)), .step] (State.resetFor 3) =
        .next t ∧ t.ip = 2 ∧ t.consumed = [0x41] :=
  ⟨_, rfl, rfl, rfl⟩

theorem test_witness_IpFollowsTheMultiplexer :
    (∃ t, copyState.Inv ∧ copyState.Active ∧ copyState.prog[copyState.ip]? = some 4 ∧
      step copyState = .next t ∧ t.status = .running ∧ copyState.inReq = false ∧
      copyState.outReq = false ∧ copyState.ip < copyState.progLen) ∧
    ∃ s t : State, s.Inv ∧ s.Active ∧ s.prog[s.ip]? = some 4 ∧ step s = .next t ∧
      t.status ≠ .running :=
  ⟨⟨_, by decide, by decide, rfl, rfl, rfl, by decide, by decide, by decide⟩,
    withAnswers copyState [.error] [], _, by decide, by decide, rfl, rfl, by decide⟩

theorem test_witness_IpStaysInTheProgram :
    ∃ s t : State, s.Inv ∧ s.Active ∧ s.ip < s.progLen ∧ step s = .next t ∧
      t.status = .running ∧ s.inReq = false ∧ s.outReq = false ∧ t.ip = s.progLen :=
  ⟨at16 copyProgram 4 0 [], _, by decide, by decide, by decide, rfl, rfl, by decide, by decide, rfl⟩

theorem test_witness_ProgramIsNeverMutated :
    (∃ t, step copyState = .next t) ∧
      (∃ s t : State, s.Active ∧ hostAct (.answerInput .exhausted) s = .next t) ∧
      ∃ s t : State, hostAct (.load copyProgram) s = .next t ∧ t.prog ≠ s.prog :=
  ⟨⟨_, rfl⟩, ⟨at16 copyProgram 0 0 [], _, by decide, rfl⟩,
    { State.reset with rst := true }, _, rfl, by decide⟩

/-- Reset, a step that goes on, and the three ends. -/
theorem test_witness_RunEndsOnlyAsTheSpecSays :
    let d := at16 copyProgram 5 0 []
    let o := withAnswers (at16 copyProgram 2 0 []) [] [.rejected]
    let i := withAnswers copyState [.error] []
    let r : State := { copyState with rst := true }
    (∃ t, r.status = .running ∧ step r = .next t ∧ t.ip = 0) ∧
      (∃ t, copyState.status = .running ∧ step copyState = .next t ∧ t.status = .running) ∧
      (∃ t, d.status = .running ∧ step d = .next t ∧ t.status = .done) ∧
      (∃ t, o.status = .running ∧ step o = .next t ∧ t.status = .outputFailure) ∧
      (∃ t, i.status = .running ∧ step i = .next t ∧ t.status = .inputFailure) :=
  ⟨⟨_, rfl, rfl, rfl⟩, ⟨_, rfl, rfl, rfl⟩, ⟨_, rfl, rfl, rfl⟩, ⟨_, rfl, rfl, rfl⟩, ⟨_, rfl, rfl, rfl⟩⟩

theorem test_witness_PortTransactionsKeepTheirOrder :
    ∃ t, core.run 3 copyState = .next t ∧ t.consumed = [0x41] ∧ t.delivered = [0x41] :=
  ⟨_, rfl, rfl, rfl⟩

theorem test_witness_TapeReadsTheLastWrite :
    (at16 [] 0 29999 [(29999, 1)]).tape.wf = true ∧
      (at16 [] 0 29999 [(29999, 1)]).cellAddr < Config.tapeLen := by decide

theorem test_witness_LoopPairIsAWhileTest :
    let z := at16 copyProgram 1 0 []
    let n := at16 copyProgram 4 0 [(0, 1)]
    z.Inv ∧ z.Active ∧ LoopPair (decodeProgram z.piw z.prog) 1 4 ∧ z.ip = 1 ∧ z.readCell = 0 ∧
      n.Inv ∧ n.Active ∧ LoopPair (decodeProgram n.piw n.prog) 1 4 ∧ n.ip = 4 ∧
      n.readCell ≠ 0 := by decide

/-- Inside the outer loop of `[[]]`, at the inner LoopForward on a zero cell. -/
theorem test_witness_LoopBodyIsLeftOnlyAtItsEnd :
    ∃ s t : State, s.Inv ∧ s.Active ∧ LoopPair (decodeProgram s.piw s.prog) 0 3 ∧ 0 < s.ip ∧
      s.ip < 3 ∧ step s = .next t ∧ t.ip = 3 :=
  ⟨at16 [0x1E, 0x16, 0x0F, 0x07] 1 0 [], _, by decide, by decide, by decide, by decide, by decide,
    rfl, rfl⟩

theorem test_witness_EmptyLoopRunsForever :
    let s := at16 [0x00, 0x16, 0x0F] 2 0 [(0, 1)]
    s.Inv ∧ s.Active ∧ LoopPair (decodeProgram s.piw s.prog) 1 (1 + 1) ∧ s.ip = 1 + 1 ∧
      s.readCell ≠ 0 := by decide

theorem test_witness_TranslatedImages :
    assemble ['[', ']', '+'] = .ok [0x0E, 0x07, 0x00] ∧
      [0x0E, 0x07, 0x00].length ≤ 2 ^ 2 - 1 ∧
      ¬ ({ State.resetFor 2 with rst := true } : State).Active ∧
      ¬ ({ State.resetFor 2 with status := .done } : State).Active := by decide

/-- A text that translates, one with too many `]`, one with too many `[`. -/
theorem test_witness_TranslationOutcomes :
    translateSource ['[', ']'] = .ok [.loopForward 1, .loopBack 0] ∧
      (([']', '['].take 1).count '[' < ([']', '['].take 1).count ']') ∧
      ['[', '['].count ']' < ['[', '['].count '[' := by decide

theorem test_witness_LoadStoresOnlyWellFormedImages :
    let s : State := { State.reset with rst := true }
    let d : State := { at16 [] 0 0 [] with status := .done }
    s.rst = true ∧ imageWf s.piw copyProgram = true ∧ State.reset.Active ∧
      d.rst = false ∧ d.status ≠ .running ∧ imageWf d.piw copyProgram = true ∧
      imageWf s.piw [0x07] = false := by decide

theorem test_witness_FaultedStateIsUnobservable :
    let s := { at16 copyProgram 2 0 [] with status := .outputFailure }
    let s' := { at16 copyProgram 2 9 [(9, 9)] with status := .outputFailure }
    s.rst = false ∧ s'.rst = false ∧ s.status = .outputFailure ∧ s'.status = s.status ∧
      s'.delivered = s.delivered ∧ s'.dp ≠ s.dp := by decide

theorem test_witness_SignalPortsShowTheTransaction :
    (at16 copyProgram 0 0 []).outPins.inReq = true ∧
      (at16 copyProgram 2 0 [(0, 0x48)]).outPins.outReq = true ∧
      (at16 copyProgram 2 0 [(0, 0x48)]).outPins.outData = some 0x48 ∧
      (at16 copyProgram 0 0 []).cellAddr < Config.tapeLen := by decide

theorem test_witness_PlacedWordIsExecutedNext :
    decode State.reset.piw (0x105 % 2 ^ 8) = .ok .output := by decide

/-- The copy program waiting at its In, and waiting at its Out. -/
theorem test_witness_WaitingTransactions :
    ((at16 copyProgram 0 0 []).Inv ∧ (at16 copyProgram 0 0 []).inReq = true) ∧
      (at16 copyProgram 2 0 [(0, 0x48)]).Inv ∧
      (at16 copyProgram 2 0 [(0, 0x48)]).outReq = true := by decide

/-- No request at an Inc; two In in a row, and an Out before an In, wait anew after an answer. -/
theorem test_witness_NoRequestIsAnsweredTwice :
    ((at16 [0] 0 0 []).inReq = false ∧ (at16 [0] 0 0 []).outReq = false) ∧
      (∃ s t : State, s.Inv ∧ hostAct (.answerInput (.byte 1)) s = .next t ∧ t.inReq = true) ∧
      ∃ s t : State, s.Inv ∧ hostAct (.answerOutput .accepted) s = .next t ∧ t.inReq = true :=
  ⟨by decide, ⟨at16 [4, 4] 0 0 [], _, by decide, rfl, by decide⟩,
    at16 [5, 4] 0 0 [], _, by decide, rfl, by decide⟩

theorem test_witness_NoAnswerComesUnasked :
    ∃ s t : State, s.NothingUnasked ∧ Event.run (.host (.answerInput (.byte 1))) s = .next t :=
  ⟨at16 copyProgram 0 0 [], _, by decide, rfl⟩

theorem test_witness_CompletedRunStandsAtTheEnd :
    ∃ s t : State, s.Inv ∧ s.status = .running ∧ step s = .next t ∧ t.status = .done ∧ t.ip = 5 :=
  ⟨at16 copyProgram 5 0 [], _, by decide, rfl, rfl, rfl, rfl⟩

/-- A step, and the load of another program, after DONE. -/
theorem test_witness_FinalStateStaysUntilReset :
    ∃ s t u : State, s.rst = false ∧ s.status ≠ .running ∧ Event.run .step s = .next t ∧
      Event.run (.host (.load [0])) s = .next u ∧ u.prog = [0] :=
  ⟨{ at16 copyProgram 5 0 [] with status := .done }, _, _, rfl, by decide, rfl, rfl, rfl⟩

theorem test_witness_ConnectionBeginsFreshStreams :
    ¬ ({ State.reset with rst := true } : State).Active ∧
      ¬ ({ State.reset with status := .outputFailure } : State).Active ∧
      State.reset.Active := by decide

end Sys2Proof.Tests
end

section
/-! The invariant of the machine: what one effect of an opcode, one step, one host action and a sequence of
events keep of it (10_state.md R22, R24, R26, R29; 70_reset_and_hazards.md R212, R219). -/

namespace Sys2Proof.Machine

variable {s t : State} {i : Instr}

/-! ### One effect of an opcode -/

/-- No opcode writes the program, the index width or the reset input (10_state.md R36). -/
theorem Effect.sameConfig (h : Effect s i t) : SameConfig s t := by
  cases h <;> exact ⟨rfl, rfl, rfl⟩

/-- An opcode leaves `dp` on the tape: only Next and Prev write it, and both through `setDp`. -/
theorem Effect.onTape (h : Effect s i t) (hdp : s.cellAddr < Config.tapeLen) :
    t.cellAddr < Config.tapeLen := by
  cases h with
  | next | prev => exact setDp_onTape s _
  | inc | dec | inWait | inByte | inExhausted | inError | outWait | outAccepted | outRejected
  | forwardZero | forwardNonzero | backZero | backNonzero => exact hdp

/-- An opcode keeps the tape canonical: only Inc, Dec and In write it, and all at `dp`. -/
theorem Effect.tape_wf (h : Effect s i t) (hdp : s.cellAddr < Config.tapeLen)
    (htape : s.tape.wf = true) : t.tape.wf = true := by
  cases h with
  | inc | dec | inByte | inExhausted => exact Memory.write_wf _ htape hdp
  | next | prev | inWait | inError | outWait | outAccepted | outRejected
  | forwardZero | forwardNonzero | backZero | backNonzero => exact htape

/-- An opcode keeps `ip`, or moves it along one of the two paths of the multiplexer (10_state.md R28). -/
theorem Effect.ip_cases (h : Effect s i t) :
    t.ip = s.ip ∨ t.ip = (s.ip + 1) % 2 ^ s.piw ∨ t.ip = (i.target + 1) % 2 ^ s.piw := by
  cases h with
  | inWait | inError | outWait | outRejected => exact .inl rfl
  | inc | dec | next | prev | inByte | inExhausted | outAccepted | forwardNonzero | backZero =>
    exact .inr (.inl rfl)
  | forwardZero | backNonzero => exact .inr (.inr rfl)

/-- From an index of the program, with a target in the program, no opcode moves `ip` past `N`. -/
theorem Effect.ip_le_progLen (h : Effect s i t) (hip : s.ip < s.progLen)
    (htgt : i.target < s.progLen) : t.ip ≤ s.progLen := by
  rcases h.ip_cases with ht | ht | ht
  · omega
  · exact ht ▸ (Nat.mod_le _ _).trans hip
  · exact ht ▸ (Nat.mod_le _ _).trans htgt

/-- The target of any opcode fetched from a well-formed image is below `N`; it is 0 where the opcode has none. -/
theorem instr_target_lt_of_imageWf {piw k w : Nat} {ws : List Nat} (h : imageWf piw ws = true)
    (hw : ws[k]? = some w) (hd : decode piw w = .ok i) : i.target < ws.length := by
  cases i with
  | loopForward n => exact target_lt_of_imageWf h hw (.inl hd)
  | loopBack n => exact target_lt_of_imageWf h hw (.inr hd)
  | inc | dec | next | prev | input | output =>
    exact Nat.zero_lt_of_lt (List.getElem?_eq_some_iff.mp hw).1

theorem Effect.inv {w : Nat} (he : Effect s i t) (h : s.Inv) (hw : s.prog[s.ip]? = some w)
    (hd : decode s.piw w = .ok i) : t.Inv := by
  have hlen := progLen_le_of_inv h
  obtain ⟨hpiw, himg, -, hdp, htape, -⟩ := h
  have hip := he.ip_le_progLen (List.getElem?_eq_some_iff.mp hw).1
    (instr_target_lt_of_imageWf himg hw hd)
  obtain ⟨tpiw, tprog, -⟩ := he.sameConfig
  have tlen : t.progLen = s.progLen := congrArg List.length tprog
  exact ⟨tpiw ▸ hpiw, by rwa [tpiw, tprog], fun _ => tlen ▸ hip, he.onTape hdp,
    he.tape_wf hdp htape, by rw [tpiw]; exact hip.trans hlen⟩

/-! ### Reset and one step -/

/-- The empty program is well-formed at every index width. -/
theorem imageWf_nil (piw : Nat) : imageWf piw [] = true := by
  simp [imageWf, programWf, decodeProgram, isBalanced, openCount, forwardsResolved, backsMatchedOnce]

theorem resetFor_inv {piw : Nat} (h : 1 ≤ piw) : (State.resetFor piw).Inv :=
  ⟨h, imageWf_nil piw, fun _ => Nat.zero_le _, Nat.zero_lt_succ _, reset_tape_wf piw, Nat.zero_le _⟩

/-- A block at its reset values with a well-formed image meets the invariant. -/
theorem hold_inv (hpiw : 1 ≤ s.piw) (himg : imageWf s.piw s.prog = true) : s.hold.Inv :=
  ⟨hpiw, himg, fun _ => Nat.zero_le _, Nat.zero_lt_succ _, hold_tape_wf s, Nat.zero_le _⟩

theorem complete_inv (h : s.Inv) : s.complete.Inv := by
  obtain ⟨hpiw, himg, -, hrest⟩ := h
  exact ⟨hpiw, himg, nofun, hrest⟩

theorem step_inv (h : s.Inv) (hs : step s = .next t) : t.Inv := by
  rcases step_next_cases hs with
    ⟨-, rfl⟩ | ⟨-, -, rfl⟩ | ⟨-, -, rfl⟩ | ⟨-, w, i, hw, hd, -, -, -, he⟩
  · exact hold_inv h.1 h.2.1
  · exact h
  · exact complete_inv h
  · exact he.inv h hw hd

/-- Under the invariant a step is answered: the word at `ip` decodes, and `dp` names a cell. -/
theorem step_answers (h : s.Inv) : ∃ t, step s = .next t := by
  obtain ⟨-, himg, -, hdp, -⟩ := h
  cases hr : s.rst with
  | true => exact ⟨_, step_held hr⟩
  | false =>
    by_cases hs : s.status = .running
    · rcases Nat.lt_or_ge s.ip s.progLen with hip | hip
      · have hw : s.prog[s.ip]? = some s.prog[s.ip] := List.getElem?_eq_getElem hip
        obtain ⟨t, ht, -⟩ := exec_effect hdp (decodeWord s.piw s.prog[s.ip])
        exact ⟨t, (step_run ⟨hr, hs⟩ hw (decode_of_imageWf himg hw).1).trans ht⟩
      · exact ⟨_, step_terminal ⟨hr, hs⟩ hip⟩
    · exact ⟨_, step_stopped hr hs⟩

theorem step_ne_fault (h : s.Inv) (r : Fault) : step s ≠ .fault r := by
  obtain ⟨t, ht⟩ := step_answers h
  simp [ht]

/-! ### One action of the host or of a collaborator -/

theorem settled_inv (h : s.Inv) : s.settled.Inv := by
  cases hr : s.rst with
  | true => rw [settled_of_rst hr]; exact hold_inv h.1 h.2.1
  | false => rwa [settled_of_released hr]

/-- A load that is not refused keeps the invariant: under reset `ip` is 0, and after the end of a run the bound
by the new `N` is not asked. -/
theorem load_inv {ws : List Nat} (h : s.Inv) (hrun : s.inRun = false)
    (hws : imageWf s.piw ws = true) : State.Inv { s.settled with prog := ws } := by
  cases hr : s.rst with
  | true =>
    rw [settled_of_rst hr]
    exact hold_inv (s := { s with prog := ws }) h.1 hws
  | false =>
    rw [settled_of_released hr]
    have hs : s.status ≠ .running := (inRun_eq_false_iff.mp hrun).resolve_left (by simp [hr])
    obtain ⟨hpiw, -, -, hrest⟩ := h
    exact ⟨hpiw, hws, fun hst => absurd hst hs, hrest⟩

theorem hostAct_inv {a : HostAction} (h : s.Inv) (ha : hostAct a s = .next t) : t.Inv := by
  rcases hostAct_next_cases ha with
    ⟨ws, -, hrun, hws, rfl⟩ | ⟨-, -, rfl⟩ | ⟨-, rfl⟩ | ⟨-, rfl⟩ | ⟨r, -, -, hs⟩ | ⟨r, -, -, hs⟩
  · exact load_inv h hrun hws
  · exact h
  · exact hold_inv h.1 h.2.1
  · exact settled_inv h
  · exact step_inv (s := { s with inAnswers := [r] }) h hs
  · exact step_inv (s := { s with outAnswers := [r] }) h hs

theorem loadImage_ne_fault (ws : List Nat) (s : State) (r : Fault) : loadImage ws s ≠ .fault r := by
  unfold loadImage
  split_ifs <;> exact nofun

theorem connectPorts_ne_fault (s : State) (r : Fault) : connectPorts s ≠ .fault r := by
  unfold connectPorts
  split_ifs <;> exact nofun

theorem answerIn_ne_fault (h : s.Inv) (a : InAnswer) (r : Fault) : answerIn a s ≠ .fault r := by
  unfold answerIn
  split
  · exact step_ne_fault (s := { s with inAnswers := [a] }) h r
  · exact nofun

theorem answerOut_ne_fault (h : s.Inv) (a : OutAnswer) (r : Fault) : answerOut a s ≠ .fault r := by
  unfold answerOut
  split
  · exact step_ne_fault (s := { s with outAnswers := [a] }) h r
  · exact nofun

theorem hostAct_ne_fault (h : s.Inv) (a : HostAction) (r : Fault) : hostAct a s ≠ .fault r := by
  cases a with
  | load ws => exact loadImage_ne_fault ws s r
  | connect => exact connectPorts_ne_fault s r
  | assertReset | releaseReset => exact nofun
  | answerInput a => exact answerIn_ne_fault h a r
  | answerOutput a => exact answerOut_ne_fault h a r

/-! ### A sequence of events -/

theorem runEvents_cons_next {e : Event} {es : List Event} {u : State} :
    runEvents (e :: es) s = .next u ↔ ∃ t, e.run s = .next t ∧ runEvents es t = .next u := by
  rw [runEvents]
  cases e.run s <;> simp

theorem runEvents_cons_fault {e : Event} {es : List Event} {r : Fault} :
    runEvents (e :: es) s = .fault r ↔
      e.run s = .fault r ∨ ∃ t, e.run s = .next t ∧ runEvents es t = .fault r := by
  rw [runEvents]
  cases e.run s <;> simp

/-- What every event keeps, every sequence of events keeps. -/
theorem runEvents_keeps {P : State → Prop} (hP : ∀ e s t, P s → Event.run e s = .next t → P t)
    {es : List Event} (h : P s) (hr : runEvents es s = .next t) : P t := by
  induction es generalizing s with
  | nil => cases hr; exact h
  | cons e es ih =>
    obtain ⟨u, hu, hr⟩ := runEvents_cons_next.mp hr
    exact ih (hP e s u h hu) hr

/-- If every event keeps `P`, and none faults where `P` holds, no sequence of events faults there. -/
theorem runEvents_ne_fault {P : State → Prop} {r : Fault}
    (hP : ∀ e s t, P s → Event.run e s = .next t → P t) (hF : ∀ e s, P s → Event.run e s ≠ .fault r)
    {es : List Event} (h : P s) : runEvents es s ≠ .fault r := by
  induction es generalizing s with
  | nil => exact nofun
  | cons e es ih =>
    intro hr
    rcases runEvents_cons_fault.mp hr with hr | ⟨t, ht, hr⟩
    · exact hF e s h hr
    · exact ih (hP e s t h ht) hr

theorem event_inv (e : Event) (s t : State) (h : s.Inv) (he : e.run s = .next t) : t.Inv := by
  cases e with
  | step => exact step_inv h he
  | host a => exact hostAct_inv h he

theorem event_ne_fault (r : Fault) (e : Event) (s : State) (h : s.Inv) : e.run s ≠ .fault r := by
  cases e with
  | step => exact step_ne_fault h r
  | host a => exact hostAct_ne_fault h a r

/-- Settles O25: the empty program is well-formed, and every other part of the invariant is a bound on 0. -/
theorem invariantAtReset : Obligations.InvariantAtReset :=
  ⟨resetFor_inv (by decide), fun _ hpiw => resetFor_inv hpiw⟩

/-- Settles O29, by induction on the events: the invariant holds at reset, every event keeps it, and under it
no event faults and every step is answered. -/
theorem everyHistoryIsSafe : Obligations.EveryHistoryIsSafe := by
  intro piw es hpiw
  have hreset := resetFor_inv hpiw
  refine ⟨fun t ht => ?_, fun r => runEvents_ne_fault event_inv (event_ne_fault r) hreset⟩
  have hinv : t.Inv := runEvents_keeps event_inv hreset ht
  exact ⟨hinv, step_answers hinv⟩

end Sys2Proof.Machine
end

section
/-! What one step does to `ip` (10_state.md R28, R29), what the loop opcodes leave unchanged (R31), and the block
at reset and once it has stopped (R23, R25, R27, R33). -/

namespace Sys2Proof.Machine

variable {s t : State} {i : Instr}

/-! ### The multiplexer of `ip` -/

/-- The multiplexer selects one of its two paths. -/
theorem muxIp_cases (k : IpPath) (c : Byte) (ip n : Nat) :
    muxIp k c ip n = n + 1 ∨ muxIp k c ip n = ip + 1 := by
  cases k with
  | increment => exact .inr rfl
  | jumpIfZero | jumpIfNonzero => exact ite_eq_or_eq ..

/-- The path that the control table selects, by the code of the opcode alone (30_encoding.md R82, R87). -/
theorem muxIp_controlOf (i : Instr) (c : Byte) (ip n : Nat) :
    muxIp (controlOf i).ip c ip n =
      if i.opCode = 6 ∧ c = 0 then n + 1 else if i.opCode = 7 ∧ c ≠ 0 then n + 1 else ip + 1 := by
  cases i <;> simp [muxIp, controlOf, Instr.opCode]

/-- The target of a loop opcode is the rest of its word (30_encoding.md R81). -/
theorem decodeWord_target {piw w : Nat} (hw : w < 2 ^ (piw + 3)) (h : w % 8 = 6 ∨ w % 8 = 7) :
    (decodeWord piw w).target = w / 8 := by
  rcases h with h | h
  · rw [decodeWord_forward h, Instr.target, tgtField_of_word hw]
  · rw [decodeWord_back h, Instr.target, tgtField_of_word hw]

/-- The multiplexer read off the fetched word. -/
theorem muxIp_of_decode {piw w : Nat} (hd : decode piw w = .ok i) (c : Byte) (ip : Nat) :
    muxIp (controlOf i).ip c ip i.target =
      if w % 8 = 6 ∧ c = 0 then w / 8 + 1 else if w % 8 = 7 ∧ c ≠ 0 then w / 8 + 1 else ip + 1 := by
  obtain ⟨hw, rfl⟩ := decode_eq_ok_iff.mp hd
  rw [muxIp_controlOf, decodeWord_opCode]
  split_ifs with hf hb
  · rw [decodeWord_target hw (.inl hf.1)]
  · rw [decodeWord_target hw (.inr hb.1)]
  · rfl

/-! ### One effect of an opcode, and one step -/

/-- An opcode waits, fails with `ip` left, or completes with the value of the multiplexer in `ip`, narrowed to
the register. -/
theorem Effect.waits_fails_or_completes (h : Effect s i t) :
    (t = s ∧ (i = .input ∧ s.inAnswers = [] ∨ i = .output ∧ s.outAnswers = [])) ∨
    (t.ip = s.ip ∧ (t.status = .inputFailure ∨ t.status = .outputFailure)) ∨
    (t.status = s.status ∧
      t.ip = muxIp (controlOf i).ip s.readCell s.ip i.target % 2 ^ s.piw) := by
  cases h with
  | inWait ha => exact .inl ⟨rfl, .inl ⟨rfl, ha⟩⟩
  | outWait ha => exact .inl ⟨rfl, .inr ⟨rfl, ha⟩⟩
  | inError => exact .inr (.inl ⟨rfl, .inl rfl⟩)
  | outRejected => exact .inr (.inl ⟨rfl, .inr rfl⟩)
  | inc | dec | next | prev | inByte | inExhausted | outAccepted => exact .inr (.inr ⟨rfl, rfl⟩)
  | forwardZero hc | backNonzero hc =>
    exact .inr (.inr ⟨rfl, congrArg (· % 2 ^ s.piw) (if_pos hc).symm⟩)
  | forwardNonzero hc => exact .inr (.inr ⟨rfl, congrArg (· % 2 ^ s.piw) (if_neg hc).symm⟩)
  | backZero hc => exact .inr (.inr ⟨rfl, congrArg (· % 2 ^ s.piw) (if_neg (not_not_intro hc)).symm⟩)

/-- A loop opcode writes `ip` alone, on either path and with any target. -/
theorem Effect.loop_eq_setIp {n : Nat} (h : Effect s i t)
    (hi : i = .loopForward n ∨ i = .loopBack n) : ∃ m, t = s.setIp m := by
  rcases hi with rfl | rfl
  · cases h with
    | forwardZero => exact ⟨n + 1, rfl⟩
    | forwardNonzero => exact ⟨s.ip + 1, rfl⟩
  · cases h with
    | backZero => exact ⟨s.ip + 1, rfl⟩
    | backNonzero => exact ⟨n + 1, rfl⟩

/-- A step of a running block has the effect of the opcode it fetches. -/
theorem step_effect {w : Nat} (hA : s.Active) (hw : s.prog[s.ip]? = some w)
    (hd : decode s.piw w = .ok i) (hs : step s = .next t) : Effect s i t :=
  (exec_next_cases ((step_run hA hw hd).symm.trans hs)).2

/-- A step that leaves RUNNING leaves `ip` (60_exceptions.md R181). -/
theorem step_ip_of_failed {w : Nat} (hA : s.Active) (hw : s.prog[s.ip]? = some w)
    (hd : decode s.piw w = .ok i) (hs : step s = .next t) (ht : t.status ≠ .running) :
    t.ip = s.ip := by
  rcases (step_effect hA hw hd hs).waits_fails_or_completes with
    ⟨rfl, -⟩ | ⟨hip, -⟩ | ⟨hst, -⟩
  · rfl
  · exact hip
  · exact absurd (hst.trans hA.2) ht

/-- A step that completes an opcode leaves the value of the multiplexer in `ip`, narrowed to the register. -/
theorem step_ip_narrowed {w : Nat} (hA : s.Active) (hw : s.prog[s.ip]? = some w)
    (hd : decode s.piw w = .ok i) (hs : step s = .next t) (ht : t.status = .running)
    (hin : s.inReq = false) (hout : s.outReq = false) :
    t.ip = muxIp (controlOf i).ip s.readCell s.ip i.target % 2 ^ s.piw := by
  have hphase := phase_run hA hw hd
  rcases (step_effect hA hw hd hs).waits_fails_or_completes with
    ⟨-, ⟨rfl, ha⟩ | ⟨rfl, ha⟩⟩ | ⟨-, hst | hst⟩ | ⟨-, hip⟩
  · exact absurd (inReq_iff.mpr ⟨hphase, ha⟩) (by simp [hin])
  · exact absurd (outReq_iff.mpr ⟨hphase, ha⟩) (by simp [hout])
  · exact absurd (hst.symm.trans ht) (by decide)
  · exact absurd (hst.symm.trans ht) (by decide)
  · exact hip

/-! ### The multiplexer in a well-formed program -/

/-- In a well-formed program the multiplexer's value is in 1..N: `ip` and the target are indices of opcodes. -/
theorem muxIp_mem_program {w : Nat} (h : s.Inv) (hw : s.prog[s.ip]? = some w)
    (hd : decode s.piw w = .ok i) (k : IpPath) (c : Byte) :
    1 ≤ muxIp k c s.ip i.target ∧ muxIp k c s.ip i.target ≤ s.progLen := by
  have hip : s.ip < s.progLen := (List.getElem?_eq_some_iff.mp hw).1
  have htgt : i.target < s.progLen := instr_target_lt_of_imageWf h.2.1 hw hd
  rcases muxIp_cases k c s.ip i.target with hm | hm <;> omega

/-- In a well-formed program the register cuts nothing off the multiplexer's value (10_state.md R29). -/
theorem step_ip_of_completed {w : Nat} (h : s.Inv) (hA : s.Active) (hw : s.prog[s.ip]? = some w)
    (hd : decode s.piw w = .ok i) (hs : step s = .next t) (ht : t.status = .running)
    (hin : s.inReq = false) (hout : s.outReq = false) :
    t.ip = muxIp (controlOf i).ip s.readCell s.ip i.target :=
  (step_ip_narrowed hA hw hd hs ht hin hout).trans
    (narrow_of_le_progLen (progLen_le_of_inv h) (muxIp_mem_program h hw hd _ _).2)

/-! ### Reset -/

theorem resetFor_atReset (piw : Nat) : (State.resetFor piw).AtReset :=
  ⟨fun _ => rfl, rfl, rfl, rfl⟩

/-! ### The obligations -/

/-- Settles O26, by the cases of a step: reset, a stopped block, completion, and the effect of one opcode. -/
theorem stepKeepsTheInvariant : Obligations.StepKeepsTheInvariant :=
  fun _ _ => step_inv

/-- Settles O4: a step leaves a stopped block as it is, so any number of steps does. -/
theorem stoppedBlockTakesNoStep : Obligations.StoppedBlockTakesNoStep :=
  fun _ k hr hs => core_run_of_step_self (step_stopped hr hs) k

/-- Settles O22: a loop opcode is one write of `ip`. -/
theorem loopsFrame : Obligations.LoopsFrame := by
  intro n i s t hi h
  obtain ⟨m, rfl⟩ := (exec_next_cases h).2.loop_eq_setIp hi
  exact ⟨rfl, fun _ => rfl, rfl, rfl, ⟨rfl, rfl⟩, ⟨rfl, rfl⟩, rfl, rfl, rfl⟩

/-- Settles O30: a completed step leaves the multiplexer's value in `ip`, and its path and target are fields of
the word. -/
theorem ipFollowsTheMultiplexer : Obligations.IpFollowsTheMultiplexer := by
  intro s t w h hA hw hs
  have hd := (decode_of_imageWf h.2.1 hw).1
  refine ⟨fun ht hin hout => ?_, step_ip_of_failed hA hw hd hs⟩
  exact (step_ip_of_completed h hA hw hd hs ht hin hout).trans (muxIp_of_decode hd _ _)

/-- Settles O31: the multiplexer's value is in 1..N, and `N` fits the register. -/
theorem ipStaysInTheProgram : Obligations.IpStaysInTheProgram := by
  intro s t h hA hip hs ht hin hout
  have hw : s.prog[s.ip]? = some s.prog[s.ip] := List.getElem?_eq_getElem hip
  have hd := (decode_of_imageWf h.2.1 hw).1
  rw [step_ip_of_completed h hA hw hd hs ht hin hout]
  obtain ⟨hpos, hle⟩ := muxIp_mem_program h hw hd _ s.readCell
  refine ⟨hpos, hle, ?_⟩
  rw [← narrow_of_le_progLen (progLen_le_of_inv h) hle]
  exact Nat.mod_lt _ (Nat.two_pow_pos s.piw)

/-- Settles O2: the reset values are those of `State.resetFor` at any index width. -/
theorem resetStateHasSpecValues : Obligations.ResetStateHasSpecValues :=
  ⟨resetFor_atReset _, fun piw => ⟨resetFor_atReset piw, rfl⟩⟩

end Sys2Proof.Machine
end

section
/-! What one opcode leaves unchanged (20_memory.md R51, R53), the order of the port transactions over a run (R57,
R63), waiting and answered transactions (R58, R59, 10_state.md R35), and who writes program memory (R36, R52). -/

namespace Sys2Proof.Machine

variable {s t u : State} {i : Instr}

/-! ### The frame of one effect of an opcode -/

/-- No opcode writes a cell but `tape[dp]` (20_memory.md R51). -/
theorem Effect.sameCellsBut (h : Effect s i t) : SameCellsBut s.cellAddr s t := by
  intro b hb
  cases h with
  | inc | dec | inByte | inExhausted => exact Memory.read_write_ne _ _ hb
  | next | prev | inWait | inError | outWait | outAccepted | outRejected
  | forwardZero | forwardNonzero | backZero | backNonzero => rfl

/-- An opcode without a tape write in the control table (30_encoding.md R87) leaves the tape. -/
theorem Effect.tape_eq (h : Effect s i t) (hi : (controlOf i).cell = .none) : t.tape = s.tape := by
  cases h with
  | inc | dec | inWait | inByte | inExhausted | inError => cases hi
  | next | prev | outWait | outAccepted | outRejected
  | forwardZero | forwardNonzero | backZero | backNonzero => rfl

/-- An opcode that keeps `dp` in the control table (30_encoding.md R87) leaves it. -/
theorem Effect.dp_eq (h : Effect s i t) (hi : (controlOf i).dp = .keep) : t.dp = s.dp := by
  cases h with
  | next | prev => cases hi
  | inc | dec | inWait | inByte | inExhausted | inError | outWait | outAccepted | outRejected
  | forwardZero | forwardNonzero | backZero | backNonzero => rfl

/-- In alone uses the input port (20_memory.md R53). -/
theorem Effect.sameInput (h : Effect s i t) (hi : i ≠ .input) : SameInput s t := by
  cases h with
  | inWait | inByte | inExhausted | inError => exact absurd rfl hi
  | inc | dec | next | prev | outWait | outAccepted | outRejected
  | forwardZero | forwardNonzero | backZero | backNonzero => exact ⟨rfl, rfl⟩

/-- Out alone uses the output port (20_memory.md R53). -/
theorem Effect.sameOutput (h : Effect s i t) (hi : i ≠ .output) : SameOutput s t := by
  cases h with
  | outWait | outAccepted | outRejected => exact absurd rfl hi
  | inc | dec | next | prev | inWait | inByte | inExhausted | inError
  | forwardZero | forwardNonzero | backZero | backNonzero => exact ⟨rfl, rfl⟩

/-- An opcode keeps `status`, or it is an In or an Out that fails and writes, beyond the answer taken, `status`
alone (42_io.md R142, 60_exceptions.md R181). -/
theorem Effect.status_cases (h : Effect s i t) :
    t.status = s.status ∨
    (i = .input ∧ t = { s with inAnswers := t.inAnswers, status := .inputFailure }) ∨
    (i = .output ∧ t = { s with outAnswers := t.outAnswers, status := .outputFailure }) := by
  cases h with
  | inError => exact .inr (.inl ⟨rfl, rfl⟩)
  | outRejected => exact .inr (.inr ⟨rfl, rfl⟩)
  | inc | dec | next | prev | inWait | inByte | inExhausted | outWait | outAccepted
  | forwardZero | forwardNonzero | backZero | backNonzero => exact .inl rfl

theorem Effect.status_eq (h : Effect s i t) (hin : i ≠ .input) (hout : i ≠ .output) :
    t.status = s.status := by
  rcases h.status_cases with hst | ⟨hi, -⟩ | ⟨hi, -⟩
  · exact hst
  · exact absurd hi hin
  · exact absurd hi hout

/-! ### The port transaction of one opcode -/

/-- In waits with the whole state unchanged, or takes the first answer and the byte it carries. -/
theorem Effect.input_cases (h : Effect s .input t) :
    (s.inAnswers = [] ∧ t = s) ∨
    ∃ a, s.inAnswers = a :: t.inAnswers ∧ t.consumed = s.consumed ++ bytesOf [a] := by
  cases h with
  | inWait ha => exact .inl ⟨ha, rfl⟩
  | inByte ha => exact .inr ⟨_, ha, rfl⟩
  | inExhausted ha | inError ha => exact .inr ⟨_, ha, (List.append_nil _).symm⟩

/-- Out waits with the whole state unchanged, or takes the first answer and, if that accepts, delivers the cell. -/
theorem Effect.output_cases (h : Effect s .output t) :
    (s.outAnswers = [] ∧ t = s) ∨
    ∃ a, s.outAnswers = a :: t.outAnswers ∧
      t.delivered = s.delivered ++ List.replicate (acceptedCount [a]) s.readCell := by
  cases h with
  | outWait ha => exact .inl ⟨ha, rfl⟩
  | outAccepted ha => exact .inr ⟨_, ha, rfl⟩
  | outRejected ha => exact .inr ⟨_, ha, (List.append_nil _).symm⟩

/-! ### The order of the transactions over steps -/

theorem bytesOf_append (l m : List InAnswer) : bytesOf (l ++ m) = bytesOf l ++ bytesOf m := by
  induction l with
  | nil => rfl
  | cons a l ih => cases a <;> simp [bytesOf, ih]

theorem acceptedCount_append (l m : List OutAnswer) :
    acceptedCount (l ++ m) = acceptedCount l + acceptedCount m := by
  induction l with
  | nil => exact (Nat.zero_add _).symm
  | cons a l ih => cases a <;> simp [acceptedCount, ih, Nat.add_right_comm]

/-- From `s` to `t` the input answers used are the first ones, and their bytes are consumed in order
(20_memory.md R57, R63). -/
def InputInOrder (s t : State) : Prop :=
  ∃ used, s.inAnswers = used ++ t.inAnswers ∧ t.consumed = s.consumed ++ bytesOf used

/-- From `s` to `t` the output answers used are the first ones, and the output stream grows by one byte for each
Accepted among them (20_memory.md R57, R63). -/
def OutputInOrder (s t : State) : Prop :=
  ∃ used sent, s.outAnswers = used ++ t.outAnswers ∧ t.delivered = s.delivered ++ sent ∧
    sent.length = acceptedCount used

theorem InputInOrder.of_sameInput (h : SameInput s t) : InputInOrder s t :=
  ⟨[], h.1.symm, h.2.trans (List.append_nil _).symm⟩

theorem OutputInOrder.of_sameOutput (h : SameOutput s t) : OutputInOrder s t :=
  ⟨[], [], h.1.symm, h.2.trans (List.append_nil _).symm, rfl⟩

theorem InputInOrder.trans (h : InputInOrder s t) (h' : InputInOrder t u) : InputInOrder s u := by
  obtain ⟨l, hl, hc⟩ := h
  obtain ⟨m, hm, hc'⟩ := h'
  exact ⟨l ++ m, by rw [hl, hm, List.append_assoc], by rw [hc', hc, bytesOf_append, List.append_assoc]⟩

theorem OutputInOrder.trans (h : OutputInOrder s t) (h' : OutputInOrder t u) : OutputInOrder s u := by
  obtain ⟨l, x, hl, hd, hx⟩ := h
  obtain ⟨m, y, hm, hd', hy⟩ := h'
  exact ⟨l ++ m, x ++ y, by rw [hl, hm, List.append_assoc], by rw [hd', hd, List.append_assoc],
    by rw [List.length_append, hx, hy, acceptedCount_append]⟩

theorem Effect.inputInOrder (h : Effect s i t) : InputInOrder s t := by
  by_cases hi : i = .input
  · subst hi
    rcases h.input_cases with ⟨-, rfl⟩ | ⟨a, ha, hc⟩
    · exact .of_sameInput ⟨rfl, rfl⟩
    · exact ⟨[a], ha, hc⟩
  · exact .of_sameInput (h.sameInput hi)

theorem Effect.outputInOrder (h : Effect s i t) : OutputInOrder s t := by
  by_cases hi : i = .output
  · subst hi
    rcases h.output_cases with ⟨-, rfl⟩ | ⟨a, ha, hd⟩
    · exact .of_sameOutput ⟨rfl, rfl⟩
    · exact ⟨[a], _, ha, hd, List.length_replicate⟩
  · exact .of_sameOutput (h.sameOutput hi)

/-- A step keeps both ports in order: only an opcode uses them. -/
theorem step_portsInOrder (h : step s = .next t) : InputInOrder s t ∧ OutputInOrder s t := by
  rcases step_next_cases h with ⟨-, rfl⟩ | ⟨-, -, rfl⟩ | ⟨-, -, rfl⟩ | ⟨-, w, i, -, -, -, -, -, he⟩
  · exact ⟨.of_sameInput ⟨rfl, rfl⟩, .of_sameOutput ⟨rfl, rfl⟩⟩
  · exact ⟨.of_sameInput ⟨rfl, rfl⟩, .of_sameOutput ⟨rfl, rfl⟩⟩
  · exact ⟨.of_sameInput ⟨rfl, rfl⟩, .of_sameOutput ⟨rfl, rfl⟩⟩
  · exact ⟨he.inputInOrder, he.outputInOrder⟩

theorem core_run_portsInOrder {k : Nat} (h : Sys2Proof.core.run k s = .next t) :
    InputInOrder s t ∧ OutputInOrder s t := by
  induction k generalizing s with
  | zero => cases h; exact ⟨.of_sameInput ⟨rfl, rfl⟩, .of_sameOutput ⟨rfl, rfl⟩⟩
  | succ k ih =>
    obtain ⟨u, hu, h⟩ := core_run_succ_next.mp h
    obtain ⟨hin, hout⟩ := step_portsInOrder hu
    obtain ⟨hin', hout'⟩ := ih h
    exact ⟨hin.trans hin', hout.trans hout'⟩

/-! ### Unasked answers -/

theorem InputInOrder.nil (h : InputInOrder s t) (hs : s.inAnswers = []) : t.inAnswers = [] := by
  obtain ⟨used, hu, -⟩ := h
  exact (List.append_eq_nil_iff.mp (hu.symm.trans hs)).2

theorem OutputInOrder.nil (h : OutputInOrder s t) (hs : s.outAnswers = []) : t.outAnswers = [] := by
  obtain ⟨used, -, hu, -⟩ := h
  exact (List.append_eq_nil_iff.mp (hu.symm.trans hs)).2

theorem step_nothingUnasked (h : s.NothingUnasked) (hs : step s = .next t) : t.NothingUnasked :=
  ⟨(step_portsInOrder hs).1.nil h.1, (step_portsInOrder hs).2.nil h.2⟩

/-- An answer given to a waiting In has the effect of an In that finds it (20_memory.md R59). -/
theorem answerInput_effect {a : InAnswer} (hreq : s.inReq = true)
    (h : hostAct (.answerInput a) s = .next t) : Effect { s with inAnswers := [a] } .input t :=
  (exec_next_cases (i := .input) ((answerIn_of_inReq hreq a).symm.trans h)).2

/-- An answer given to a waiting Out has the effect of an Out that finds it (20_memory.md R59). -/
theorem answerOutput_effect {a : OutAnswer} (hreq : s.outReq = true)
    (h : hostAct (.answerOutput a) s = .next t) : Effect { s with outAnswers := [a] } .output t :=
  (exec_next_cases (i := .output) ((answerOut_of_outReq hreq a).symm.trans h)).2

/-- In uses up a single answer. -/
theorem Effect.input_uses_single {a : InAnswer} (h : Effect s .input t) (hs : s.inAnswers = [a]) :
    t.inAnswers = [] := by
  rcases h.input_cases with ⟨hnil, -⟩ | ⟨b, hb, -⟩
  · exact absurd (hnil.symm.trans hs) nofun
  · exact (List.cons.inj (hb.symm.trans hs)).2

/-- Out uses up a single answer. -/
theorem Effect.output_uses_single {a : OutAnswer} (h : Effect s .output t) (hs : s.outAnswers = [a]) :
    t.outAnswers = [] := by
  rcases h.output_cases with ⟨hnil, -⟩ | ⟨b, hb, -⟩
  · exact absurd (hnil.symm.trans hs) nofun
  · exact (List.cons.inj (hb.symm.trans hs)).2

theorem hostAct_nothingUnasked {a : HostAction} (h : s.NothingUnasked) (ha : hostAct a s = .next t) :
    t.NothingUnasked := by
  obtain ⟨hin, hout⟩ := h
  rcases hostAct_next_cases ha with
    ⟨ws, -, -, -, rfl⟩ | ⟨-, -, rfl⟩ | ⟨-, rfl⟩ | ⟨-, rfl⟩ | ⟨r, rfl, hr, -⟩ | ⟨r, rfl, hr, -⟩
  · exact ⟨s.settled_inAnswers.trans hin, s.settled_outAnswers.trans hout⟩
  · exact ⟨rfl, rfl⟩
  · exact ⟨hin, hout⟩
  · exact ⟨s.settled_inAnswers.trans hin, s.settled_outAnswers.trans hout⟩
  · have he := answerInput_effect hr ha
    exact ⟨he.input_uses_single rfl, he.outputInOrder.nil hout⟩
  · have he := answerOutput_effect hr ha
    exact ⟨he.inputInOrder.nil hin, he.output_uses_single rfl⟩

/-! ### Waiting and answered transactions -/

theorem ip_lt_of_phase_run (h : s.phase = .run i) : s.ip < s.progLen := by
  obtain ⟨-, w, hw, -⟩ := phase_run_iff.mp h
  exact (List.getElem?_eq_some_iff.mp hw).1

/-- At an opcode of a well-formed program the register cuts nothing off `ip + 1` (10_state.md R29). -/
theorem ip_succ_narrow (h : s.Inv) (hp : s.phase = .run i) : (s.ip + 1) % 2 ^ s.piw = s.ip + 1 :=
  narrow_of_le_progLen (progLen_le_of_inv h) (ip_lt_of_phase_run hp)

theorem step_of_phase_run (h : s.phase = .run i) : step s = exec i s := by
  simp only [step, h]

/-- A waiting In changes nothing (10_state.md R35). -/
theorem step_of_inReq (hdp : s.cellAddr < Config.tapeLen) (h : s.inReq = true) : step s = .next s := by
  obtain ⟨hp, ha⟩ := inReq_iff.mp h
  exact (step_of_phase_run hp).trans (execIn_wait hdp ha)

/-- A waiting Out changes nothing (10_state.md R35). -/
theorem step_of_outReq (hdp : s.cellAddr < Config.tapeLen) (h : s.outReq = true) : step s = .next s := by
  obtain ⟨hp, ha⟩ := outReq_iff.mp h
  exact (step_of_phase_run hp).trans (execOut_wait hdp ha)

/-- `Byte(b)` to a waiting In (42_io.md R140). -/
theorem answerInput_byte (h : s.Inv) (hreq : s.inReq = true) (b : Byte) :
    hostAct (.answerInput (.byte b)) s =
      .next { s.writeCell b with ip := s.ip + 1, consumed := s.consumed ++ [b] } := by
  obtain ⟨hp, hnil⟩ := inReq_iff.mp hreq
  have hip := ip_succ_narrow h hp
  obtain ⟨-, -, -, hdp, -⟩ := h
  have hex := execIn_byte (s := { s with inAnswers := [.byte b] }) hdp rfl
  refine (answerIn_of_inReq hreq _).trans (hex.trans ?_)
  simp [hip, hnil, cellAddr_eq]

/-- `Exhausted` to a waiting In (42_io.md R140, D8). -/
theorem answerInput_exhausted (h : s.Inv) (hreq : s.inReq = true) :
    hostAct (.answerInput .exhausted) s = .next { s.writeCell 0 with ip := s.ip + 1 } := by
  obtain ⟨hp, hnil⟩ := inReq_iff.mp hreq
  have hip := ip_succ_narrow h hp
  obtain ⟨-, -, -, hdp, -⟩ := h
  have hex := execIn_exhausted (s := { s with inAnswers := [.exhausted] }) hdp rfl
  refine (answerIn_of_inReq hreq _).trans (hex.trans ?_)
  simp [hip, hnil, cellAddr_eq]

/-- `Error` to a waiting In (42_io.md R140). -/
theorem answerInput_error (hdp : s.cellAddr < Config.tapeLen) (hreq : s.inReq = true) :
    hostAct (.answerInput .error) s = .next { s with status := .inputFailure } := by
  have hex := execIn_error (s := { s with inAnswers := [.error] }) hdp rfl
  refine (answerIn_of_inReq hreq _).trans (hex.trans ?_)
  rw [(inReq_iff.mp hreq).2]

/-- `Accepted` to a waiting Out (42_io.md R141). -/
theorem answerOutput_accepted (h : s.Inv) (hreq : s.outReq = true) :
    hostAct (.answerOutput .accepted) s =
      .next { s with ip := s.ip + 1, delivered := s.delivered ++ [s.readCell] } := by
  obtain ⟨hp, hnil⟩ := outReq_iff.mp hreq
  have hip := ip_succ_narrow h hp
  obtain ⟨-, -, -, hdp, -⟩ := h
  have hex := execOut_accepted (s := { s with outAnswers := [.accepted] }) hdp rfl
  refine (answerOut_of_outReq hreq _).trans (hex.trans ?_)
  simp [hip, hnil, readCell_eq, cellAddr_eq]

/-- `Rejected` to a waiting Out (42_io.md R141). -/
theorem answerOutput_rejected (hdp : s.cellAddr < Config.tapeLen) (hreq : s.outReq = true) :
    hostAct (.answerOutput .rejected) s = .next { s with status := .outputFailure } := by
  have hex := execOut_rejected (s := { s with outAnswers := [.rejected] }) hdp rfl
  refine (answerOut_of_outReq hreq _).trans (hex.trans ?_)
  rw [(outReq_iff.mp hreq).2]

/-- The status pin tells the four statuses apart (10_state.md R32). -/
theorem Status.code_injective : Function.Injective Status.code := by
  intro a b
  cases a <;> cases b <;> decide

/-! ### Program memory -/

/-- No step writes program memory or the index width (10_state.md R36). -/
theorem step_program (h : step s = .next t) : t.prog = s.prog ∧ t.piw = s.piw := by
  rcases step_next_cases h with ⟨-, rfl⟩ | ⟨-, -, rfl⟩ | ⟨-, -, rfl⟩ | ⟨-, w, i, -, -, -, -, -, he⟩
  · exact ⟨rfl, rfl⟩
  · exact ⟨rfl, rfl⟩
  · exact ⟨rfl, rfl⟩
  · obtain ⟨hpiw, hprog, -⟩ := he.sameConfig
    exact ⟨hprog, hpiw⟩

/-- No action of the host writes the index width, and only a load writes program memory. -/
theorem hostAct_program {a : HostAction} (h : hostAct a s = .next t) :
    t.piw = s.piw ∧ (t.prog = s.prog ∨ a = .load t.prog) := by
  rcases hostAct_next_cases h with
    ⟨ws, rfl, -, -, rfl⟩ | ⟨-, -, rfl⟩ | ⟨-, rfl⟩ | ⟨-, rfl⟩ | ⟨r, -, -, hs⟩ | ⟨r, -, -, hs⟩
  · exact ⟨s.settled_piw, .inr rfl⟩
  · exact ⟨rfl, .inl rfl⟩
  · exact ⟨rfl, .inl rfl⟩
  · exact ⟨s.settled_piw, .inl s.settled_prog⟩
  · exact ⟨(step_program hs).2, .inl (step_program hs).1⟩
  · exact ⟨(step_program hs).2, .inl (step_program hs).1⟩

/-- During a run a load is refused (70_reset_and_hazards.md R212, R219). -/
theorem load_refused_of_active (h : s.Active) (ws : List Nat) :
    hostAct (.load ws) s = .refused .duringRun :=
  if_pos (inRun_eq_true_iff.mpr h)

/-! ### The obligations -/

/-- Settles O19: the frame of one effect, with the row of the control table for Inc, Dec and In. -/
theorem cellWritersFrame : Obligations.CellWritersFrame := by
  intro i s t hi h
  have he := (exec_next_cases h).2
  have hdp : (controlOf i).dp = .keep := by rcases hi with rfl | rfl | rfl <;> rfl
  have hout : i ≠ .output := by rcases hi with rfl | rfl | rfl <;> exact nofun
  refine ⟨he.sameCellsBut, he.dp_eq hdp, he.sameOutput hout, he.sameConfig,
    fun hin => ⟨he.sameInput hin, he.status_eq hin hout⟩, ?_⟩
  rcases he.status_cases with hst | ⟨hin, ht⟩ | ⟨hi, -⟩
  · exact .inl hst
  · rw [ht]; exact .inr ⟨hin, rfl, rfl, rfl⟩
  · exact absurd hi hout

/-- Settles O20: the frame of one effect, with the row of the control table for Next and Prev. -/
theorem pointerMovesFrame : Obligations.PointerMovesFrame := by
  intro i s t hi h
  have he := (exec_next_cases h).2
  have hcell : (controlOf i).cell = .none := by rcases hi with rfl | rfl <;> rfl
  have hin : i ≠ .input := by rcases hi with rfl | rfl <;> exact nofun
  have hout : i ≠ .output := by rcases hi with rfl | rfl <;> exact nofun
  have htape := he.tape_eq hcell
  exact ⟨htape, fun a => by rw [htape], he.status_eq hin hout, he.sameInput hin, he.sameOutput hout,
    he.sameConfig⟩

/-- Settles O21: the frame of one effect, with the row of the control table for Out. -/
theorem outFrame : Obligations.OutFrame := by
  intro s t h
  have he := (exec_next_cases h).2
  have htape := he.tape_eq rfl
  refine ⟨htape, fun a => by rw [htape], he.dp_eq rfl, he.sameInput nofun, he.sameConfig, ?_⟩
  rcases he.status_cases with hst | ⟨hi, -⟩ | ⟨-, ht⟩
  · exact .inl hst
  · cases hi
  · rw [ht]; exact .inr ⟨rfl, rfl, rfl⟩

/-- Settles O32: only a load writes program memory, and during a run a load is refused. -/
theorem programIsNeverMutated : Obligations.ProgramIsNeverMutated := by
  refine ⟨fun _ _ => step_program, fun a s t hA h => ?_, fun _ _ _ => hostAct_program⟩
  rcases (hostAct_program h).2 with hprog | rfl
  · exact hprog
  · rw [load_refused_of_active hA] at h; cases h

/-- Settles O34, by induction on the number of steps: the order of the ports is kept by one step and composes. -/
theorem portTransactionsKeepTheirOrder : Obligations.PortTransactionsKeepTheirOrder :=
  fun _ _ _ => core_run_portsInOrder

/-- Settles O35, by the laws of the canonical tape. -/
theorem tapeReadsTheLastWrite : Obligations.TapeReadsTheLastWrite := by
  refine ⟨fun s v hwf ha => ?_, fun s v w hwf ha => ?_, fun _ _ => rfl⟩
  · exact ⟨Memory.write_wf v hwf ha, Memory.read_write_self hwf v, fun _ => Memory.read_write_ne _ v⟩
  · exact congrArg (fun m => { s with tape := m }) (Memory.write_write hwf ha v w)

/-- Settles O46: a waiting transaction steps to the same state, and the status codes are distinct. -/
theorem signalPortsShowTheTransaction : Obligations.SignalPortsShowTheTransaction := by
  refine ⟨fun _ => ⟨rfl, rfl, rfl, rfl⟩, rfl, rfl, fun s hdp => ⟨step_of_inReq hdp, fun h => ?_⟩,
    fun s => ⟨rfl, ?_⟩⟩
  · exact ⟨if_pos h, step_of_outReq hdp h⟩
  · have hcode {c : BitVec 2} {st : Status} (hst : st.code = c) : s.outPins.status = c ↔ s.status = st :=
      Status.code_injective.eq_iff' hst
    exact ⟨hcode rfl, hcode rfl, hcode rfl, hcode rfl⟩

/-- Settles O48: each answer gives one next state, and a canonical tape reads what was written. -/
theorem anAnswerCompletesTheWaitingIn : Obligations.AnAnswerCompletesTheWaitingIn := by
  intro s h hreq
  obtain ⟨-, hnil⟩ := inReq_iff.mp hreq
  have ⟨_, _, _, hdp, hwf, _⟩ := h
  refine ⟨fun b => ⟨_, answerInput_byte h hreq b, ?_⟩, ⟨_, answerInput_exhausted h hreq, ?_⟩,
    answerInput_error hdp hreq⟩
  · exact ⟨Memory.read_write_self hwf b, fun _ => Memory.read_write_ne _ b, rfl, rfl, rfl, hnil, rfl,
      ⟨rfl, rfl⟩, rfl, rfl, rfl⟩
  · exact ⟨Memory.read_write_self hwf 0, fun _ => Memory.read_write_ne _ 0, rfl, rfl, rfl, hnil, rfl,
      ⟨rfl, rfl⟩, rfl, rfl, rfl⟩

/-- Settles O49: each answer gives one next state. -/
theorem anAnswerCompletesTheWaitingOut : Obligations.AnAnswerCompletesTheWaitingOut := by
  intro s h hreq
  have ⟨_, _, _, hdp, _⟩ := h
  exact ⟨answerOutput_accepted h hreq, answerOutput_rejected hdp hreq⟩

/-- Settles O51: a step takes answers away only, and a collaborator's answer is the single one that the waiting
opcode uses up. -/
theorem noAnswerComesUnasked : Obligations.NoAnswerComesUnasked := by
  refine ⟨fun _ => ⟨rfl, rfl⟩, fun e s t h he => ?_⟩
  cases e with
  | step => exact step_nothingUnasked h he
  | host a => exact hostAct_nothingUnasked h he

end Sys2Proof.Machine
end

section
/-! The encoding: an instruction and its word determine each other, and the decoder reads nothing else
(30_encoding.md R80 to R85, R102). -/

namespace Sys2Proof

variable {piw w : Nat} {i : Instr}

/-! ### The fields of a word -/

/-- The `op` field of an instruction's word is the instruction's code (30_encoding.md R80, R82). -/
theorem encode_mod (i : Instr) : encode i % 8 = i.opCode := by
  have hop := i.opCode_lt
  rw [encode_eq]
  omega

/-- The `tgt` field of an instruction's word is the instruction's target (30_encoding.md R80, R102). -/
theorem encode_div (i : Instr) : encode i / 8 = i.target := by
  have hop := i.opCode_lt
  rw [encode_eq]
  omega

/-- The word of a well-formed instruction has `P_IW + 3` bits. -/
theorem encode_lt (h : i.WellFormed piw) : encode i < 2 ^ (piw + 3) := by
  have hop := i.opCode_lt
  have htgt := i.target_lt h
  rw [encode_eq, Nat.pow_add]
  omega

/-- An instruction whose target fits the `tgt` field is well-formed. -/
theorem Instr.wellFormed_of_target_lt (h : i.target < 2 ^ piw) : i.WellFormed piw := by
  cases i with
  | loopForward t | loopBack t => exact decide_eq_true h
  | inc | dec | next | prev | input | output => rfl

/-- The six opcodes without a payload have target 0 (30_encoding.md R102). -/
theorem Instr.target_of_opCode_lt (h : i.opCode < 6) : i.target = 0 := by
  cases i with
  | loopForward t | loopBack t => simp [Instr.opCode] at h
  | inc | dec | next | prev | input | output => rfl

/-- On a word the decoder selects by the word modulo 8, with the rest of the word as target. -/
theorem decodeWord_of_word (h : w < 2 ^ (piw + 3)) : decodeWord piw w = selectOp (w % 8) (w / 8) := by
  rw [decodeWord, opField_eq, tgtField_of_word h]

theorem decode_encode (h : i.WellFormed piw) : decode piw (encode i) = .ok i := by
  have hw := encode_lt h
  rw [decode_of_word hw, decodeWord_of_word hw, encode_mod, encode_div, selectOp_self]

/-- A code below 6 selects the same opcode with any target (30_encoding.md R84). -/
theorem selectOp_of_lt_six {op : Nat} (h : op < 6) (t t' : Nat) : selectOp op t = selectOp op t' := by
  interval_cases op <;> rfl

/-- The decoder ignores the `tgt` field of the six opcodes without a payload (30_encoding.md R84). -/
theorem decode_eq_of_reserved {w' : Nat} (hw : w < 2 ^ (piw + 3)) (hw' : w' < 2 ^ (piw + 3))
    (hop : w % 8 = w' % 8) (hlt : w % 8 < 6) : decode piw w = decode piw w' := by
  rw [decode_of_word hw, decode_of_word hw', decodeWord_of_word hw, decodeWord_of_word hw', ← hop,
    selectOp_of_lt_six hlt]

theorem opCode_of_decode (h : decode piw w = .ok i) : i.opCode = w % 8 := by
  obtain ⟨-, rfl⟩ := decode_eq_ok_iff.mp h
  exact decodeWord_opCode piw w

/-! ### The obligations -/

/-- Settles O9: the two fields of the word are the code and the target, which select the instruction. -/
theorem decodeOfEncode : Obligations.DecodeOfEncode :=
  fun _ _ => decode_encode

/-- Settles O7: the fields of a word select its opcode and target; a wider number is rejected. -/
theorem everyWordDecodes : Obligations.EveryWordDecodes := by
  refine fun piw w => ⟨fun hw => ?_, decode_of_wide⟩
  refine ⟨_, decode_of_word hw, decodeWord_opCode piw w, decodeWord_wellFormed piw w, fun h => ?_,
    fun h => ?_⟩
  · rw [decodeWord_forward h, tgtField_of_word hw]
  · rw [decodeWord_back h, tgtField_of_word hw]

/-- Settles O10: the decoded code is the word's `op` field, and the decoded target is the rest of the word for a
loop opcode and 0 for the others. -/
theorem encodeOfDecode : Obligations.EncodeOfDecode := by
  intro piw w i hd
  have hop := opCode_of_decode hd
  obtain ⟨hw, rfl⟩ := decode_eq_ok_iff.mp hd
  refine ⟨fun h => ?_, fun h => ?_⟩
  · rw [encode_eq, hop, Machine.decodeWord_target hw (by omega)]
    omega
  · rw [encode_eq, Instr.target_of_opCode_lt (hop ▸ h), Nat.zero_mul, Nat.zero_add, hop]

/-- Settles O6, by evaluating the decoder on the eleven words. -/
theorem specWordsDecode : Obligations.SpecWordsDecode := by
  unfold Obligations.SpecWordsDecode
  decide

end Sys2Proof
end

section
/-! What an opcode does, from its effect back to `exec`: the effect determines the answer, does not depend on
program memory, and is that of the control table (30_encoding.md R84, R87, R90, R91; 10_state.md R28). -/

namespace Sys2Proof.Machine

variable {s t : State} {i : Instr}

/-! ### From the effect back to the meaning -/

/-- The converse of `exec_next_cases`: on the tape an effect is the opcode's answer. -/
theorem Effect.exec_eq (h : Effect s i t) (hdp : s.cellAddr < Config.tapeLen) :
    exec i s = .next t := by
  cases h with
  | inc => exact execInc_eq hdp
  | dec => exact execDec_eq hdp
  | next => exact execNext_eq hdp
  | prev => exact execPrev_eq hdp
  | inWait ha => exact execIn_wait hdp ha
  | inByte ha => exact execIn_byte hdp ha
  | inExhausted ha => exact execIn_exhausted hdp ha
  | inError ha => exact execIn_error hdp ha
  | outWait ha => exact execOut_wait hdp ha
  | outAccepted ha => exact execOut_accepted hdp ha
  | outRejected ha => exact execOut_rejected hdp ha
  | forwardZero hc => exact (execLoopForward_eq hdp _).trans (congrArg _ (if_pos hc))
  | forwardNonzero hc => exact (execLoopForward_eq hdp _).trans (congrArg _ (if_neg hc))
  | backZero hc => exact (execLoopBack_eq hdp _).trans (congrArg _ (if_pos hc))
  | backNonzero hc => exact (execLoopBack_eq hdp _).trans (congrArg _ (if_neg hc))

/-- An opcode has the same effect with any program in program memory. -/
theorem Effect.withProg (h : Effect s i t) (p : List Nat) :
    Effect { s with prog := p } i { t with prog := p } := by
  cases h with
  | inc => exact .inc
  | dec => exact .dec
  | next => exact .next
  | prev => exact .prev
  | inWait ha => exact .inWait ha
  | inByte ha => exact .inByte ha
  | inExhausted ha => exact .inExhausted ha
  | inError ha => exact .inError ha
  | outWait ha => exact .outWait ha
  | outAccepted ha => exact .outAccepted ha
  | outRejected ha => exact .outRejected ha
  | forwardZero hc => exact .forwardZero hc
  | forwardNonzero hc => exact .forwardNonzero hc
  | backZero hc => exact .backZero hc
  | backNonzero hc => exact .backNonzero hc

theorem exec_withProg (h : exec i s = .next t) (p : List Nat) :
    exec i { s with prog := p } = .next { t with prog := p } := by
  obtain ⟨hdp, he⟩ := exec_next_cases h
  exact (he.withProg p).exec_eq hdp

/-- With another word of the same opcode at `ip`, a step answers the same but for the word. -/
theorem step_set_word {w w' : Nat} (hA : s.Active) (hw : s.prog[s.ip]? = some w)
    (hd : decode s.piw w = .ok i) (hd' : decode s.piw w' = .ok i) (hs : step s = .next t) :
    step { s with prog := s.prog.set s.ip w' } = .next { t with prog := s.prog.set s.ip w' } := by
  have hip : s.ip < s.prog.length := (List.getElem?_eq_some_iff.mp hw).1
  have hex : exec i s = .next t := (step_run hA hw hd).symm.trans hs
  exact (step_run (s := { s with prog := s.prog.set s.ip w' }) hA (List.getElem?_set_self hip)
    hd').trans (exec_withProg hex _)

/-! ### The control table -/

theorem muxDp_up (hdp : s.cellAddr < Config.tapeLen) :
    muxDp .up s.dp = (s.setDp (s.cellAddr + 1)).dp := by
  apply BitVec.eq_of_toNat_eq
  rw [setDp_toNat]
  have hd : s.dp.toNat < 30000 := hdp
  simp only [muxDp, cellAddr_eq]
  split
  · next h => simp [h]
  · next h => bv_omega

theorem muxDp_down (hdp : s.cellAddr < Config.tapeLen) :
    muxDp .down s.dp = (s.setDp (Config.tapeLen - 1 + s.cellAddr)).dp := by
  apply BitVec.eq_of_toNat_eq
  rw [setDp_toNat, tapeLen_eq]
  have hd : s.dp.toNat < 30000 := hdp
  simp only [muxDp, cellAddr_eq]
  split
  · next h => simp [h]
  · next h => bv_omega

theorem muxCell_plusOne (c b : Byte) : muxCell .plusOne c b = addCell c 1 := by
  apply BitVec.eq_of_toNat_eq
  rw [addCell_toNat]
  exact BitVec.toNat_add c 1

theorem muxCell_minusOne (c b : Byte) : muxCell .minusOne c b = addCell c 255 := by
  apply BitVec.eq_of_toNat_eq
  rw [addCell_toNat, Nat.add_comm]
  exact BitVec.toNat_sub c 1

theorem runControl_of_offTape (h : Config.tapeLen ≤ s.cellAddr) (k : Control) (n : Nat) :
    runControl k n s = .fault .dpOutOfRange :=
  if_neg (BitVec.not_lt.mpr h)

/-- On the tape a row without a port commits its writes. -/
theorem runControl_of_noPort {k : Control} {n : Nat} (hdp : s.cellAddr < Config.tapeLen)
    (hk : k.port = .none) (ht : s.commit k n s.readCell 0 = t) : runControl k n s = .next t := by
  have hd : s.dp < 30000 := hdp
  rw [runControl, if_pos hd, hk, ← ht]

/-- The control table has each effect of an opcode. -/
theorem Effect.runControl_eq (h : Effect s i t) (hdp : s.cellAddr < Config.tapeLen) :
    runControl (controlOf i) i.target s = .next t := by
  have hd : s.dp < 30000 := hdp
  cases h with
  | inc =>
    exact runControl_of_noPort hdp rfl
      (congrArg (fun v => (s.writeCell v).advance) (muxCell_plusOne ..))
  | dec =>
    exact runControl_of_noPort hdp rfl
      (congrArg (fun v => (s.writeCell v).advance) (muxCell_minusOne ..))
  | next =>
    exact runControl_of_noPort hdp rfl
      (congrArg (fun d => State.advance { s with dp := d }) (muxDp_up hdp))
  | prev =>
    exact runControl_of_noPort hdp rfl
      (congrArg (fun d => State.advance { s with dp := d }) (muxDp_down hdp))
  | inByte ha | inExhausted ha | outAccepted ha =>
    simp only [runControl, if_pos hd, controlOf, ha]
    rfl
  | inWait ha | inError ha | outWait ha | outRejected ha =>
    simp only [runControl, if_pos hd, controlOf, ha]
  | forwardZero hc | backNonzero hc =>
    exact runControl_of_noPort hdp rfl (congrArg s.setIp (if_pos hc))
  | forwardNonzero hc => exact runControl_of_noPort hdp rfl (congrArg s.setIp (if_neg hc))
  | backZero hc =>
    exact runControl_of_noPort hdp rfl (congrArg s.setIp (if_neg (not_not_intro hc)))

/-! ### The end of a run, and the placed word -/

/-- An opcode keeps `status`, or it is an Out answered Rejected or an In answered Error and writes, beyond the
answer taken, `status` alone (42_io.md R140, R141). -/
theorem Effect.keeps_status_or_fails (h : Effect s i t) :
    t.status = s.status ∨
    (i = .output ∧ ∃ r, s.outAnswers = .rejected :: r ∧
      t = { s with outAnswers := r, status := .outputFailure }) ∨
    (i = .input ∧ ∃ r, s.inAnswers = .error :: r ∧
      t = { s with inAnswers := r, status := .inputFailure }) := by
  cases h with
  | outRejected ha => exact .inr (.inl ⟨rfl, _, ha, rfl⟩)
  | inError ha => exact .inr (.inr ⟨rfl, _, ha, rfl⟩)
  | inc | dec | next | prev | inWait | inByte | inExhausted | outWait | outAccepted
  | forwardZero | forwardNonzero | backZero | backNonzero => exact .inl rfl

/-- The next fetch reads the word that was placed. -/
theorem placeWord_getElem? (prog : List Nat) (k w : Nat) : (placeWord prog k w)[k]? = some w := by
  have hlen : (prog.take k ++ List.replicate (k - prog.length) 0).length = k := by
    rw [List.length_append, List.length_take, List.length_replicate]
    omega
  rw [placeWord, List.getElem?_append_right hlen.le, hlen, Nat.sub_self]
  rfl

theorem hold_atReset (s : State) : s.hold.AtReset :=
  ⟨fun _ => rfl, rfl, rfl, rfl⟩

/-! ### The obligations -/

/-- Settles O8: the decoder ignores the field, the assembler writes 0 there, and no opcode reads its own word. -/
theorem reservedFieldIgnored : Obligations.ReservedFieldIgnored := by
  intro piw w w' hw hw' hop hlt
  have hd := decode_eq_of_reserved hw hw' hop hlt
  refine ⟨hd, fun i hi => ?_, fun s hA hpiw hword t hs => ?_⟩
  · rw [encode_div, Instr.target_of_opCode_lt (opCode_of_decode hi ▸ hlt)]
  · subst hpiw
    have hi := decode_of_word hw
    exact step_set_word hA hword hi (hd ▸ hi) hs

/-- Settles O33, by the cases of a step: an opcode leaves RUNNING only where its port fails. -/
theorem runEndsOnlyAsTheSpecSays : Obligations.RunEndsOnlyAsTheSpecSays := by
  intro s t hrun hs
  rcases step_next_cases hs with
    ⟨hr, rfl⟩ | ⟨-, hst, -⟩ | ⟨-, hip, rfl⟩ | ⟨hA, w, i, -, -, hphase, -, -, he⟩
  · exact .inl ⟨hr, hold_atReset s⟩
  · exact absurd hrun hst
  · exact .inr (.inr (.inl ⟨hip, rfl⟩))
  · rcases he.keeps_status_or_fails with hst | ⟨rfl, hout⟩ | ⟨rfl, hin⟩
    · exact .inr (.inl ⟨hA.1, hst.trans hrun⟩)
    · exact .inr (.inr (.inr (.inl ⟨hphase, hout⟩)))
    · exact .inr (.inr (.inr (.inr ⟨hphase, hin⟩)))

/-- Settles O36: off the tape both fault, and on it the control table has every effect of the opcode. -/
theorem opcodesAgreeWithControlTable : Obligations.OpcodesAgreeWithControlTable := by
  intro i s
  rcases Nat.lt_or_ge s.cellAddr Config.tapeLen with hdp | hdp
  · obtain ⟨t, ht, he⟩ := exec_effect hdp i
    rw [ht, he.runControl_eq hdp]
  · rw [exec_of_offTape hdp, runControl_of_offTape hdp]

/-- Settles O3: the terminal check comes first, then the fetched opcode; an empty program has `0 ≤ ip`. -/
theorem stepChecksFetchesAndExecutes : Obligations.StepChecksFetchesAndExecutes :=
  fun s hA => ⟨step_terminal hA, fun _ _ _ => step_run hA,
    fun hN => step_terminal hA (hN ▸ Nat.zero_le s.ip)⟩

/-- Settles O47: the placed word stands at `ip` of an active block, and the other fields stay. -/
theorem placedWordIsExecutedNext : Obligations.PlacedWordIsExecutedNext := by
  intro s nbits w i hd
  have hword := placeWord_getElem? s.prog s.ip (w % 2 ^ nbits)
  exact ⟨step_run (s := s.withFetchWord nbits w) ⟨rfl, rfl⟩ hword hd, rfl, rfl, rfl⟩

end Sys2Proof.Machine
end

section
/-! The translator and the load: what the loop-resolution scan answers (30_encoding.md R96 to R101), that its
images are well-formed (R95, R102), and which images the host's load stores (70_reset_and_hazards.md R212). -/

namespace Sys2Proof.Machine

variable {ops out p : List Instr} {stack : List Nat} {src : List Char} {d : Nat} {c : Char}

/-! ### A successful scan -/

/-- A scan that ends leaves no loop open, and writes targets but no code (30_encoding.md R98). -/
theorem resolve_ok (h : ScanInvariant out stack) (hr : resolve ops out stack = .ok p) :
    ScanInvariant p [] ∧ p.map Instr.opCode = (out ++ ops).map Instr.opCode := by
  induction ops generalizing out stack with
  | nil =>
    cases stack with
    | nil => cases hr; exact ⟨h, by rw [List.append_nil]⟩
    | cons i st => cases hr
  | cons op ops ih =>
    cases op with
    | inc | dec | next | prev | input | output =>
      rw [List.append_cons]
      exact ih (h.append_plain rfl rfl) hr
    | loopForward t =>
      rw [List.append_cons]
      exact ih (h.push t) hr
    | loopBack t =>
      cases stack with
      | nil => cases hr
      | cons i st =>
        obtain ⟨hp, hcode⟩ := ih h.pop hr
        have hset := map_opCode_set_forward (n := out.length) h.stack_open.1
        refine ⟨hp, hcode.trans ?_⟩
        rw [List.map_append, List.map_append, hset]
        simp [Instr.opCode]

theorem translateSource_ok (h : translateSource src = .ok p) :
    ScanInvariant p [] ∧ p.map Instr.opCode = (emit src).map Instr.opCode :=
  resolve_ok scanInvariant_nil h

/-- A program with no loop left open, short enough for the index width, meets R95. -/
theorem ScanInvariant.resolved {piw : Nat} (h : ScanInvariant p [])
    (hlen : p.length ≤ Config.maxProgLen piw) : Resolved piw p :=
  ⟨hlen, h.nonneg, h.count, fun i hi => (h.forward i hi).resolve_left List.not_mem_nil, h.back⟩

/-! ### The image of a program -/

/-- The instructions of a program that meets R95 fit the words of its index width. -/
theorem Resolved.wellFormed {piw : Nat} {i : Instr} (h : Resolved piw p) (hi : i ∈ p) :
    i.WellFormed piw := by
  obtain ⟨k, hk⟩ := List.mem_iff_getElem?.mp hi
  have hlen : p.length < 2 ^ piw := by
    have hpos := Nat.two_pow_pos piw
    have hle := h.length_le
    unfold Config.maxProgLen at hle
    omega
  cases i with
  | loopForward t => exact Instr.wellFormed_of_target_lt ((h.target_lt (.inl hk)).trans hlen)
  | loopBack t => exact Instr.wellFormed_of_target_lt ((h.target_lt (.inr hk)).trans hlen)
  | inc | dec | next | prev | input | output => rfl

/-- Decoding the words of well-formed instructions gives the instructions back. -/
theorem decodeProgram_map_encode {piw : Nat} (h : ∀ i ∈ p, i.WellFormed piw) :
    decodeProgram piw (p.map encode) = p := by
  rw [decodeProgram, List.map_map]
  refine (List.map_congr_left fun i hi => ?_).trans (List.map_id p)
  exact (decode_eq_ok_iff.mp (decode_encode (h i hi))).2

theorem imageWf_of_resolved {piw : Nat} (h : Resolved piw p) : imageWf piw (p.map encode) = true := by
  refine imageWf_iff.mpr ⟨fun w hw => ?_, ?_⟩
  · obtain ⟨i, hi, rfl⟩ := List.mem_map.mp hw
    exact encode_lt (h.wellFormed hi)
  · rwa [decodeProgram_map_encode fun i => h.wellFormed]

theorem assemble_ok {ws : List Nat} (h : assemble src = .ok ws) :
    ∃ p, translateSource src = .ok p ∧ ws = p.map encode := by
  unfold assemble at h
  split at h
  · next p hp => cases h; exact ⟨p, hp, rfl⟩
  · cases h

theorem imageWf_of_assemble {piw : Nat} {ws : List Nat} (h : assemble src = .ok ws)
    (hlen : ws.length ≤ Config.maxProgLen piw) : imageWf piw ws = true := by
  obtain ⟨p, hp, rfl⟩ := assemble_ok h
  rw [List.length_map] at hlen
  exact imageWf_of_resolved ((translateSource_ok hp).1.resolved hlen)

/-! ### Which texts translate -/

/-- Started with `d` loops open, no part of the text from its start closes more loops than are open. -/
def NestsFrom (d : Nat) (src : List Char) : Prop :=
  ∀ n, (src.take n).count ']' ≤ d + (src.take n).count '['

theorem nestsFrom_nil (d : Nat) : NestsFrom d [] := fun n => by simp

/-- The text after a first character: the empty part closes nothing. -/
theorem nestsFrom_cons : NestsFrom d (c :: src) ↔
    ∀ n, (c :: src.take n).count ']' ≤ d + (c :: src.take n).count '[' := by
  refine ⟨fun h n => h (n + 1), fun h n => ?_⟩
  cases n with
  | zero => exact Nat.zero_le _
  | succ n => exact h n

theorem nestsFrom_open : NestsFrom d ('[' :: src) ↔ NestsFrom (d + 1) src := by
  rw [nestsFrom_cons]
  refine forall_congr' fun n => ?_
  rw [List.count_cons_self, List.count_cons_of_ne (by decide)]
  omega

theorem nestsFrom_close : NestsFrom (d + 1) (']' :: src) ↔ NestsFrom d src := by
  rw [nestsFrom_cons]
  refine forall_congr' fun n => ?_
  rw [List.count_cons_self, List.count_cons_of_ne (by decide)]
  omega

theorem not_nestsFrom_zero_close : ¬ NestsFrom 0 (']' :: src) := fun h => by
  simpa using h 1

theorem nestsFrom_other (hopen : c ≠ '[') (hclose : c ≠ ']') :
    NestsFrom d (c :: src) ↔ NestsFrom d src := by
  rw [nestsFrom_cons]
  refine forall_congr' fun n => ?_
  rw [List.count_cons_of_ne hopen, List.count_cons_of_ne hclose]

/-- What the scan of a text answers when it starts with `d` loops open: one of the three outcomes of R99 to R101,
each with the nesting it goes with. -/
inductive ScanOutcome (d : Nat) (src : List Char) : Except TranslateError (List Instr) → Prop
  | unmatchedEnd (pos : Nat) (h : ¬ NestsFrom d src) :
      ScanOutcome d src (.error (.unmatchedLoopEnd pos))
  | unmatchedStart (ps : List Nat) (h : NestsFrom d src)
      (hlt : src.count ']' < d + src.count '[') :
      ScanOutcome d src (.error (.unmatchedLoopStart ps))
  | translated (p : List Instr) (h : NestsFrom d src) (heq : src.count ']' = d + src.count '[') :
      ScanOutcome d src (.ok p)

/-- The outcome depends on the nesting and the surplus of open loops alone. -/
theorem ScanOutcome.congr {d' : Nat} {src' : List Char} {r : Except TranslateError (List Instr)}
    (h : ScanOutcome d src r) (hn : NestsFrom d' src' ↔ NestsFrom d src)
    (hs : src'.count ']' + (d + src.count '[') = src.count ']' + (d' + src'.count '[')) :
    ScanOutcome d' src' r := by
  cases h with
  | unmatchedEnd pos h => exact .unmatchedEnd pos (hn.not.mpr h)
  | unmatchedStart ps h hlt => exact .unmatchedStart ps (hn.mpr h) (by omega)
  | translated p h heq => exact .translated p (hn.mpr h) (by omega)

theorem ScanOutcome.cons_open {r : Except TranslateError (List Instr)}
    (h : ScanOutcome (d + 1) src r) : ScanOutcome d ('[' :: src) r :=
  h.congr nestsFrom_open (by rw [List.count_cons_self, List.count_cons_of_ne (by decide)]; omega)

theorem ScanOutcome.cons_close {r : Except TranslateError (List Instr)} (h : ScanOutcome d src r) :
    ScanOutcome (d + 1) (']' :: src) r :=
  h.congr nestsFrom_close (by rw [List.count_cons_self, List.count_cons_of_ne (by decide)]; omega)

theorem ScanOutcome.cons_other {r : Except TranslateError (List Instr)} (h : ScanOutcome d src r)
    (hopen : c ≠ '[') (hclose : c ≠ ']') : ScanOutcome d (c :: src) r :=
  h.congr (nestsFrom_other hopen hclose)
    (by rw [List.count_cons_of_ne hopen, List.count_cons_of_ne hclose])

/-- The scan of a text, by induction on the text: `[` opens a loop, `]` closes one if one is open, and every other
character leaves the open loops. -/
theorem resolve_outcome (src : List Char) (out : List Instr) (stack : List Nat) :
    ScanOutcome stack.length src (resolve (emit src) out stack) := by
  induction src generalizing out stack with
  | nil =>
    cases stack with
    | nil => exact .translated out (nestsFrom_nil 0) rfl
    | cons i st => exact .unmatchedStart (i :: st) (nestsFrom_nil _) (Nat.zero_lt_succ _)
  | cons c src ih =>
    rcases opcodeOf_cases c with ⟨rfl, -⟩ | ⟨rfl, -⟩ | ⟨rfl, -⟩ | ⟨rfl, -⟩ | ⟨rfl, -⟩ | ⟨rfl, -⟩ |
      ⟨rfl, -⟩ | ⟨rfl, -⟩ | ⟨hsig, hnone⟩
    iterate 6 exact (ih (out ++ [_]) stack).cons_other (by decide) (by decide)
    · exact (ih _ (out.length :: stack)).cons_open
    · cases stack with
      | nil => exact .unmatchedEnd out.length not_nestsFrom_zero_close
      | cons i st => exact (ih _ st).cons_close
    · rw [emit, List.filterMap_cons_none hnone]
      refine (ih out stack).cons_other ?_ ?_ <;> (rintro rfl; exact absurd hsig (by decide))

theorem translateSource_outcome (src : List Char) : ScanOutcome 0 src (translateSource src) :=
  resolve_outcome src [] []

theorem ScanOutcome.unmatchedEnd_iff {r : Except TranslateError (List Instr)}
    (h : ScanOutcome d src r) : (∃ p, r = .error (.unmatchedLoopEnd p)) ↔ ¬ NestsFrom d src := by
  cases h with
  | unmatchedEnd pos h => exact ⟨fun _ => h, fun _ => ⟨pos, rfl⟩⟩
  | unmatchedStart ps h hlt => exact ⟨fun ⟨_, hr⟩ => (nomatch hr), fun hn => absurd h hn⟩
  | translated p h heq => exact ⟨fun ⟨_, hr⟩ => (nomatch hr), fun hn => absurd h hn⟩

theorem ScanOutcome.unmatchedStart_iff {r : Except TranslateError (List Instr)}
    (h : ScanOutcome d src r) : (∃ ps, r = .error (.unmatchedLoopStart ps)) ↔
      NestsFrom d src ∧ src.count ']' < d + src.count '[' := by
  cases h with
  | unmatchedEnd pos h => exact ⟨fun ⟨_, hr⟩ => (nomatch hr), fun hn => absurd hn.1 h⟩
  | unmatchedStart ps h hlt => exact ⟨fun _ => ⟨h, hlt⟩, fun _ => ⟨ps, rfl⟩⟩
  | translated p h heq => exact ⟨fun ⟨_, hr⟩ => (nomatch hr), fun hn => absurd heq hn.2.ne⟩

theorem ScanOutcome.translated_iff {r : Except TranslateError (List Instr)}
    (h : ScanOutcome d src r) : (∃ p, r = .ok p) ↔
      NestsFrom d src ∧ src.count ']' = d + src.count '[' := by
  cases h with
  | unmatchedEnd pos h => exact ⟨fun ⟨_, hr⟩ => (nomatch hr), fun hn => absurd hn.1 h⟩
  | unmatchedStart ps h hlt => exact ⟨fun ⟨_, hr⟩ => (nomatch hr), fun hn => absurd hn.2 hlt.ne⟩
  | translated p h heq => exact ⟨fun _ => ⟨h, heq⟩, fun _ => ⟨p, rfl⟩⟩

/-! ### Source order -/

/-- A comment emits nothing (30_encoding.md R96). -/
theorem opcodeOf_of_not_significant (h : isSignificant c = false) : opcodeOf c = none := by
  rcases opcodeOf_cases c with ⟨rfl, -⟩ | ⟨rfl, -⟩ | ⟨rfl, -⟩ | ⟨rfl, -⟩ | ⟨rfl, -⟩ | ⟨rfl, -⟩ |
    ⟨rfl, -⟩ | ⟨rfl, -⟩ | ⟨-, hnone⟩
  iterate 8 exact absurd h (by decide)
  exact hnone

theorem emit_filter (src : List Char) : emit (src.filter isSignificant) = emit src := by
  rw [emit, emit, List.filterMap_filter]
  refine List.filterMap_congr fun c _ => ?_
  split
  · rfl
  · next h => exact (opcodeOf_of_not_significant (eq_false_of_ne_true h)).symm

/-! ### The load -/

/-- An image that breaks R95 is refused in every state (30_encoding.md R93). -/
theorem load_refused_of_malformed {ws : List Nat} {s : State} (hw : imageWf s.piw ws = false) :
    ∃ r, hostAct (.load ws) s = .refused r := by
  simp only [hostAct, loadImage, hw, Bool.false_eq_true, if_false]
  split_ifs <;> exact ⟨_, rfl⟩

/-! ### The obligations -/

/-- Settles O40: the scan's invariant at the end of the text is R95, and every target fits its field. -/
theorem translatedImagesAreWellFormed : Obligations.TranslatedImagesAreWellFormed :=
  fun _ _ _ => imageWf_of_assemble

/-- Settles O41: the three outcomes of the scan exclude one another. -/
theorem translationFailsExactlyOnUnmatchedLoops :
    Obligations.TranslationFailsExactlyOnUnmatchedLoops := by
  intro src
  have h := translateSource_outcome src
  refine ⟨h.unmatchedEnd_iff.trans ?_, h.unmatchedStart_iff.trans ?_, h.translated_iff.trans ?_⟩
  · simp only [NestsFrom, Nat.zero_add, not_forall, not_le]
  · simp only [NestsFrom, Nat.zero_add]
  · simp only [NestsFrom, Nat.zero_add]

/-- Settles O42: comments emit nothing, and the scan writes no code. -/
theorem translationKeepsSourceOrder : Obligations.TranslationKeepsSourceOrder := by
  refine fun src => ⟨by rw [translateSource, translateSource, emit_filter], fun p hp => ?_⟩
  rw [(translateSource_ok hp).2, ← emit_filter, emit, List.map_filterMap]
  refine List.filterMap_congr fun c hc => ?_
  rcases opcodeOf_cases c with ⟨rfl, -⟩ | ⟨rfl, -⟩ | ⟨rfl, -⟩ | ⟨rfl, -⟩ | ⟨rfl, -⟩ | ⟨rfl, -⟩ |
    ⟨rfl, -⟩ | ⟨rfl, -⟩ | ⟨hsig, -⟩
  iterate 8 rfl
  exact absurd (List.mem_filter.mp hc).2 (by simp [hsig])

/-- Settles O44: the image of a text that translates is well-formed, so the load stores it. -/
theorem translatedImagesLoad : Obligations.TranslatedImagesLoad := by
  intro s src ws hA h hlen
  have hrun : s.inRun = false := eq_false_of_ne_true (inRun_eq_true_iff.not.mpr hA)
  exact ⟨_, loadImage_eq hrun (imageWf_of_assemble h hlen), rfl⟩

/-- Settles O43, by the tests of the load: a run that is on, then the image. -/
theorem loadStoresOnlyWellFormedImages : Obligations.LoadStoresOnlyWellFormedImages := by
  refine fun s ws => ⟨fun hr hw => ?_, fun hr hs hw => ?_, fun hA => load_refused_of_active hA ws,
    load_refused_of_malformed⟩
  · refine ⟨_, loadImage_eq (inRun_eq_false_iff.mpr (.inl hr)) hw, ?_⟩
    rw [settled_of_rst hr]
    exact ⟨rfl, rfl, hr, hold_atReset s, ⟨rfl, rfl⟩, rfl, rfl⟩
  · have hload := loadImage_eq (inRun_eq_false_iff.mpr (.inr hs)) hw
    rwa [settled_of_released hr] at hload

end Sys2Proof.Machine
end

section
/-! Cell arithmetic (40_cell_arith.md R120, R121): Inc and Dec are one operation with the summands 1 and 255, and
on a canonical tape its repetitions add up modulo 256. -/

namespace Sys2Proof.Machine

variable {s : State} {i : Instr}

/-! ### Words, symbols and repetition -/

/-- Every word with the code of an opcode without a payload decodes to it (30_encoding.md R82, R84). -/
theorem encodedAs_opCode (h : i.opCode < 6) : EncodedAs i.opCode i := by
  intro piw w hw hop
  rw [decode_of_word hw, decodeWord_of_word hw, hop, selectOp_of_lt_six h _ i.target, selectOp_self]

/-- The first of `k + 1` executions in a row, then the `k` others. -/
theorem execTimes_succ {t : State} (h : exec i s = .next t) (k : Nat) :
    execTimes i (k + 1) s = execTimes i k t := by
  rw [execTimes, h]

/-! ### Adding to the cell -/

/-- `tape[dp] <- (tape[dp] + k) mod 256`; `ip <- ip + 1`: Inc with `k = 1` (R120), Dec with `k = 255` (R121). -/
def State.addToCell (s : State) (k : Nat) : State := (s.writeCell (addCell s.readCell k)).advance

theorem exec_inc (hdp : s.cellAddr < Config.tapeLen) : exec .inc s = .next (s.addToCell 1) :=
  execInc_eq hdp

theorem exec_dec (hdp : s.cellAddr < Config.tapeLen) : exec .dec s = .next (s.addToCell 255) :=
  execDec_eq hdp

@[simp] theorem State.addToCell_tape (s : State) (k : Nat) :
    (s.addToCell k).tape = s.tape.write s.cellAddr (addCell s.readCell k) := rfl

@[simp] theorem State.addToCell_dp (s : State) (k : Nat) : (s.addToCell k).dp = s.dp := rfl

@[simp] theorem State.addToCell_cellAddr (s : State) (k : Nat) :
    (s.addToCell k).cellAddr = s.cellAddr := rfl

theorem addToCell_wf (hdp : s.cellAddr < Config.tapeLen) (hwf : s.tape.wf = true) (k : Nat) :
    (s.addToCell k).tape.wf = true :=
  Memory.write_wf _ hwf hdp

theorem addToCell_readCell (hwf : s.tape.wf = true) (k : Nat) :
    (s.addToCell k).readCell = addCell s.readCell k :=
  Memory.read_write_self hwf _

/-- What an addition writes and all it leaves, while an opcode executes. -/
theorem addToCell_effect (hE : s.Executing) (hwf : s.tape.wf = true) (k : Nat) :
    ((s.addToCell k).tape.read s.cellAddr).toNat = (s.readCell.toNat + k) % 256 ∧
    SameCellsBut s.cellAddr s (s.addToCell k) ∧ (s.addToCell k).ip = s.ip + 1 ∧
    (s.addToCell k).dp = s.dp ∧ (s.addToCell k).status = s.status ∧
    SameInput s (s.addToCell k) ∧ SameOutput s (s.addToCell k) ∧ SameConfig s (s.addToCell k) := by
  obtain ⟨hip, hlen, -⟩ := hE
  have hcell : ((s.addToCell k).tape.read s.cellAddr).toNat = (s.readCell.toNat + k) % 256 :=
    (congrArg BitVec.toNat (addToCell_readCell hwf k)).trans (addCell_toNat _ k)
  exact ⟨hcell, fun _ => Memory.read_write_ne _ _, narrow_of_le_progLen hlen hip, rfl, rfl, ⟨rfl, rfl⟩,
    ⟨rfl, rfl⟩, rfl, rfl, rfl⟩

/-! ### Additions in a row -/

/-- Two additions to one cell write the sum. -/
theorem addToCell_addToCell_tape (hdp : s.cellAddr < Config.tapeLen) (hwf : s.tape.wf = true)
    (j k : Nat) : ((s.addToCell j).addToCell k).tape = (s.addToCell (j + k)).tape := by
  rw [State.addToCell_tape, addToCell_readCell hwf, addCell_addCell, State.addToCell_cellAddr,
    State.addToCell_tape, Memory.write_write hwf hdp, State.addToCell_tape]

/-- An addition that leaves the cell's value leaves the tape. -/
theorem addToCell_tape_of_same (hdp : s.cellAddr < Config.tapeLen) (hwf : s.tape.wf = true) {k : Nat}
    (hk : addCell s.readCell k = s.readCell) : (s.addToCell k).tape = s.tape := by
  rw [State.addToCell_tape, hk]
  exact Memory.write_read hwf hdp

/-- `k` Inc in a row leave the tape of one addition of `k`. -/
theorem execTimes_inc (hdp : s.cellAddr < Config.tapeLen) (hwf : s.tape.wf = true) (k : Nat) :
    ∃ t, execTimes .inc k s = .next t ∧ t.tape = (s.addToCell k).tape ∧ t.dp = s.dp := by
  induction k generalizing s with
  | zero => exact ⟨s, rfl, (addToCell_tape_of_same hdp hwf (addCell_zero _)).symm, rfl⟩
  | succ k ih =>
    obtain ⟨t, ht, htape, hdpt⟩ := ih (s := s.addToCell 1) hdp (addToCell_wf hdp hwf 1)
    refine ⟨t, (execTimes_succ (exec_inc hdp) k).trans ht, ?_, hdpt⟩
    rw [htape, addToCell_addToCell_tape hdp hwf, Nat.add_comm]

/-! ### The obligations -/

/-- Settles O11: Inc adds 1, and 256 Inc in a row add 256, which leaves the cell. -/
theorem incIncrementsTheCell : Obligations.IncIncrementsTheCell := by
  refine ⟨encodedAs_opCode (i := .inc) (by decide), rfl, fun s hE hwf => ?_, fun s hdp hwf => ?_⟩
  · have ⟨_, _, hdp⟩ := hE
    exact ⟨_, exec_inc hdp, addToCell_effect hE hwf 1⟩
  · obtain ⟨t, ht, htape, hdpt⟩ := execTimes_inc hdp hwf 256
    exact ⟨t, ht, htape.trans (addToCell_tape_of_same hdp hwf (addCell_256 _)), hdpt⟩

/-- Settles O12: Dec adds 255, and Inc then Dec add 256, which leaves the cell. -/
theorem decDecrementsTheCell : Obligations.DecDecrementsTheCell := by
  refine ⟨encodedAs_opCode (i := .dec) (by decide), rfl, fun s hE hwf => ?_, fun s hdp hwf => ?_⟩
  · have ⟨_, _, hdp⟩ := hE
    exact ⟨_, exec_dec hdp, addToCell_effect hE hwf 255⟩
  · refine ⟨_, _, exec_inc hdp, exec_dec hdp, ?_, rfl⟩
    rw [addToCell_addToCell_tape hdp hwf]
    exact addToCell_tape_of_same hdp hwf (addCell_256 _)

end Sys2Proof.Machine
end

section
/-! Data-pointer movement (41_data_pointer.md R130, R131): Next and Prev are one operation with the summands 1 and
29999, and on the tape its repetitions add up modulo 30000. -/

namespace Sys2Proof.Machine

variable {s : State}

/-! ### Moving the pointer -/

/-- `dp <- (dp + k) mod 30000`; `ip <- ip + 1`: Next with `k = 1` (R130), Prev with `k = 29999` (R131). -/
def State.moveDp (s : State) (k : Nat) : State := (s.setDp (s.cellAddr + k)).advance

theorem exec_next (hdp : s.cellAddr < Config.tapeLen) : exec .next s = .next (s.moveDp 1) :=
  execNext_eq hdp

theorem exec_prev (hdp : s.cellAddr < Config.tapeLen) : exec .prev s = .next (s.moveDp 29999) := by
  rw [State.moveDp, Nat.add_comm]
  exact execPrev_eq hdp

@[simp] theorem State.moveDp_tape (s : State) (k : Nat) : (s.moveDp k).tape = s.tape := rfl

@[simp] theorem State.moveDp_dp_toNat (s : State) (k : Nat) :
    (s.moveDp k).dp.toNat = (s.dp.toNat + k) % 30000 :=
  setDp_toNat s (s.cellAddr + k)

theorem moveDp_onTape (s : State) (k : Nat) : (s.moveDp k).cellAddr < Config.tapeLen :=
  setDp_onTape s (s.cellAddr + k)

/-- All that a move leaves, and the next index, while an opcode executes. -/
theorem moveDp_frame (hE : s.Executing) (k : Nat) :
    (s.moveDp k).tape = s.tape ∧ (s.moveDp k).ip = s.ip + 1 ∧ (s.moveDp k).status = s.status ∧
    SameInput s (s.moveDp k) ∧ SameOutput s (s.moveDp k) ∧ SameConfig s (s.moveDp k) := by
  obtain ⟨hip, hlen, -⟩ := hE
  exact ⟨rfl, narrow_of_le_progLen hlen hip, rfl, ⟨rfl, rfl⟩, ⟨rfl, rfl⟩, rfl, rfl, rfl⟩

/-! ### Moves in a row -/

/-- Two moves move by the sum. -/
theorem moveDp_moveDp_dp (s : State) (j k : Nat) :
    ((s.moveDp j).moveDp k).dp = (s.moveDp (j + k)).dp := by
  apply BitVec.eq_of_toNat_eq
  simp [Nat.add_assoc]

/-- A move by a multiple of the tape's length leaves a `dp` that is on the tape. -/
theorem moveDp_dp_of_dvd (hdp : s.cellAddr < Config.tapeLen) {k : Nat} (hk : 30000 ∣ k) :
    (s.moveDp k).dp = s.dp := by
  apply BitVec.eq_of_toNat_eq
  have hd : s.dp.toNat < 30000 := hdp
  rw [State.moveDp_dp_toNat]
  omega

/-- `k` Next in a row are one move by `k`, and the tape stays. -/
theorem execTimes_next (hdp : s.cellAddr < Config.tapeLen) (k : Nat) :
    ∃ t, execTimes .next k s = .next t ∧ t.dp = (s.moveDp k).dp ∧ t.tape = s.tape := by
  induction k generalizing s with
  | zero => exact ⟨s, rfl, (moveDp_dp_of_dvd hdp (Nat.dvd_zero _)).symm, rfl⟩
  | succ k ih =>
    obtain ⟨t, ht, hdpt, htape⟩ := ih (moveDp_onTape s 1)
    refine ⟨t, (execTimes_succ (exec_next hdp) k).trans ht, ?_, htape⟩
    rw [hdpt, moveDp_moveDp_dp, Nat.add_comm]

/-! ### The obligations -/

/-- Settles O13: Next moves by 1, and 30000 Next in a row move by 30000, which leaves `dp`. -/
theorem nextMovesTheDataPointerUp : Obligations.NextMovesTheDataPointerUp := by
  refine ⟨encodedAs_opCode (i := .next) (by decide), rfl, fun s hE => ?_, fun s hdp => ?_⟩
  · have ⟨_, _, hdp⟩ := hE
    exact ⟨_, exec_next hdp, State.moveDp_dp_toNat s 1, moveDp_frame hE 1⟩
  · obtain ⟨t, ht, hdpt, htape⟩ := execTimes_next hdp 30000
    exact ⟨t, ht, hdpt.trans (moveDp_dp_of_dvd hdp (Nat.dvd_refl _)), htape⟩

/-- Settles O14: Prev moves by 29999, and Next then Prev move by 30000, which leaves `dp`. -/
theorem prevMovesTheDataPointerDown : Obligations.PrevMovesTheDataPointerDown := by
  refine ⟨encodedAs_opCode (i := .prev) (by decide), rfl, fun s hE => ?_, fun s hdp => ?_⟩
  · have ⟨_, _, hdp⟩ := hE
    refine ⟨_, exec_prev hdp, ?_, moveDp_frame hE 29999⟩
    rw [State.moveDp_dp_toNat]
    omega
  · refine ⟨_, _, exec_next hdp, exec_prev (moveDp_onTape s 1), ?_, State.moveDp_tape _ _⟩
    rw [moveDp_moveDp_dp]
    exact moveDp_dp_of_dvd hdp (Nat.dvd_refl _)

end Sys2Proof.Machine
end

section
/-! I/O (42_io.md R140 to R142): In stores a byte of the port or the 0 of exhaustion by one write, Out leaves the
tape, and each execution takes at most one answer of its own port. -/

namespace Sys2Proof.Machine

variable {s : State}

/-! ### Storing the port's byte -/

/-- The end of an In that does not fail (42_io.md R140): `tape[dp] <- v`; `ip <- ip + 1`; the answers in `r` are
left, and the bytes in `c` are consumed so far. -/
def State.storeInput (s : State) (v : Byte) (r : List InAnswer) (c : List Byte) : State :=
  { (s.writeCell v).advance with inAnswers := r, consumed := c }

theorem exec_input_byte {b : Byte} {r : List InAnswer} (hdp : s.cellAddr < Config.tapeLen)
    (ha : s.inAnswers = .byte b :: r) :
    exec .input s = .next (s.storeInput b r (s.consumed ++ [b])) :=
  execIn_byte hdp ha

/-- Exhaustion stores 0 (the spec's decision D8) and consumes nothing. -/
theorem exec_input_exhausted {r : List InAnswer} (hdp : s.cellAddr < Config.tapeLen)
    (ha : s.inAnswers = .exhausted :: r) : exec .input s = .next (s.storeInput 0 r s.consumed) :=
  execIn_exhausted hdp ha

/-- What storing the port's byte writes and all it leaves, while an opcode executes. -/
theorem storeInput_effect (hE : s.Executing) (hwf : s.tape.wf = true) (v : Byte) (r : List InAnswer)
    (c : List Byte) :
    (s.storeInput v r c).tape.read s.cellAddr = v ∧ SameCellsBut s.cellAddr s (s.storeInput v r c) ∧
    (s.storeInput v r c).ip = s.ip + 1 ∧
    (s.storeInput v r c).inAnswers = r ∧ (s.storeInput v r c).consumed = c ∧
    (s.storeInput v r c).dp = s.dp ∧ (s.storeInput v r c).status = s.status ∧
    SameOutput s (s.storeInput v r c) ∧ SameConfig s (s.storeInput v r c) := by
  obtain ⟨hip, hlen, -⟩ := hE
  exact ⟨Memory.read_write_self hwf v, fun _ => Memory.read_write_ne _ v, narrow_of_le_progLen hlen hip,
    rfl, rfl, rfl, rfl, ⟨rfl, rfl⟩, rfl, rfl, rfl⟩

/-! ### The obligations -/

/-- Settles O15: a byte and exhaustion store a value and advance; an error and an empty port have one next state. -/
theorem inReadsOneByte : Obligations.InReadsOneByte := by
  refine ⟨encodedAs_opCode (i := .input) (by decide), rfl, fun s hE hwf => ?_, fun s hdp => ?_⟩
  · have ⟨_, _, hdp⟩ := hE
    exact ⟨fun b r ha => ⟨_, exec_input_byte hdp ha, storeInput_effect hE hwf b r _⟩,
      fun r ha => ⟨_, exec_input_exhausted hdp ha, storeInput_effect hE hwf 0 r _⟩⟩
  · exact ⟨fun r ha => execIn_error hdp ha, execIn_wait hdp⟩

/-- Settles O16: the equation of each answer; while an opcode executes the register cuts nothing off `ip + 1`. -/
theorem outWritesOneByte : Obligations.OutWritesOneByte := by
  refine ⟨encodedAs_opCode (i := .output) (by decide), rfl, fun s hE r ha => ?_, fun s hdp => ?_⟩
  · obtain ⟨hip, hlen, hdp⟩ := hE
    have hex : exec .output s = .next
        { s.advance with outAnswers := r, delivered := s.delivered ++ [s.readCell] } :=
      execOut_accepted hdp ha
    rw [hex, advance_eq hlen hip]
  · exact ⟨fun r ha => execOut_rejected hdp ha, execOut_wait hdp⟩

/-- Settles O23: the frame of one effect, and the port transaction of In and of Out. -/
theorem onlyInAndOutUseThePorts : Obligations.OnlyInAndOutUseThePorts := by
  intro i s t h
  have he := (exec_next_cases h).2
  refine ⟨he.sameInput, he.sameOutput, he.status_eq, ?_, ?_⟩
  · rintro rfl
    exact he.input_cases.imp_right fun ⟨a, ha, _⟩ => ⟨a, ha⟩
  · rintro rfl
    exact he.output_cases.imp_right fun ⟨a, ha, _⟩ => ⟨a, ha⟩

end Sys2Proof.Machine
end

section
/-! Loop control (43_loop_control.md R160 to R163): the two loop opcodes as equations, the two ends of a loop pair
as one test, and the nesting of loop pairs, which keeps every jump from inside a body inside it. -/

namespace Sys2Proof.Machine

variable {s t : State} {i : Instr} {p : List Instr} {j k m n : Nat}

/-! ### The loop opcodes while they execute -/

/-- Every word with code 0b110 is a LoopForward to the rest of the word (30_encoding.md R81, R82). -/
theorem decode_forward {piw w : Nat} (hw : w < 2 ^ (piw + 3)) (h : w % 8 = 6) :
    decode piw w = .ok (.loopForward (w / 8)) := by
  rw [decode_of_word hw, decodeWord_forward h, tgtField_of_word hw]

/-- Every word with code 0b111 is a LoopBack to the rest of the word (30_encoding.md R81, R82). -/
theorem decode_back {piw w : Nat} (hw : w < 2 ^ (piw + 3)) (h : w % 8 = 7) :
    decode piw w = .ok (.loopBack (w / 8)) := by
  rw [decode_of_word hw, decodeWord_back h, tgtField_of_word hw]

theorem exec_loopForward (hE : s.Executing) (hn : n < s.progLen) :
    exec (.loopForward n) s =
      .next { s with ip := if s.readCell = 0 then n + 1 else s.ip + 1 } := by
  obtain ⟨hip, hlen, hdp⟩ := hE
  refine (execLoopForward_eq hdp n).trans ?_
  rw [jumpPast_eq hlen hn, advance_eq hlen hip]
  split <;> rfl

theorem exec_loopBack (hE : s.Executing) (hn : n < s.progLen) :
    exec (.loopBack n) s =
      .next { s with ip := if s.readCell = 0 then s.ip + 1 else n + 1 } := by
  obtain ⟨hip, hlen, hdp⟩ := hE
  refine (execLoopBack_eq hdp n).trans ?_
  rw [jumpPast_eq hlen hn, advance_eq hlen hip]
  split <;> rfl

/-- Of the opcodes only the two of loops take the jump path of the multiplexer (43_loop_control.md R164). -/
theorem Effect.ip_cases_of_opcode (h : Effect s i t) :
    t.ip = s.ip ∨ t.ip = (s.ip + 1) % 2 ^ s.piw ∨
    ∃ n, (i = .loopForward n ∨ i = .loopBack n) ∧ t.ip = (n + 1) % 2 ^ s.piw := by
  cases h with
  | inWait | inError | outWait | outRejected => exact .inl rfl
  | inc | dec | next | prev | inByte | inExhausted | outAccepted | forwardNonzero | backZero =>
    exact .inr (.inl rfl)
  | forwardZero => exact .inr (.inr ⟨_, .inl rfl, rfl⟩)
  | backNonzero => exact .inr (.inr ⟨_, .inr rfl, rfl⟩)

/-! ### Loop pairs -/

theorem LoopPair.lt (h : LoopPair p j k) : j < k := (matchingBack_eq_some.mp h.2).1.1

/-- The nesting count after a pair is the count before it (30_encoding.md R95 item 3). -/
theorem LoopPair.openCount_end (h : LoopPair p j k) : openCount p (k + 1) = openCount p j :=
  (matchingBack_eq_some.mp h.2).1.2.1

/-- A pair whose LoopForward is inside another pair ends inside it: else the count at the outer end, which is back
at the outer value, would still be above the inner one. -/
theorem LoopPair.back_inside (h : LoopPair p j k) (h' : LoopPair p m n) (hjm : j < m) (hmk : m < k) :
    n < k := by
  have hm := openCount_inside h.1 h.2 hjm hmk.le
  have hk := h.openCount_end
  rcases Nat.lt_trichotomy n k with hlt | rfl | hgt
  · exact hlt
  · have := h'.openCount_end
    omega
  · have := openCount_inside h'.1 h'.2 (x := k + 1) (by omega) hgt
    omega

/-- A pair whose LoopBack is inside another pair begins inside it. -/
theorem LoopPair.forward_inside (h : LoopPair p j k) (h' : LoopPair p m n) (hjn : j < n) (hnk : n < k) :
    j < m := by
  have hn := openCount_inside h.1 h.2 (x := n + 1) (by omega) hnk
  have hm := h'.openCount_end
  rcases Nat.lt_trichotomy j m with hlt | rfl | hgt
  · exact hlt
  · omega
  · have := openCount_inside h'.1 h'.2 hgt hjn.le
    omega

/-- In a resolved program the two opcodes of a pair name each other. -/
theorem Resolved.opcodes_of_loopPair {piw : Nat} (hR : Resolved piw p) (h : LoopPair p j k) :
    p[j]? = some (.loopForward k) ∧ p[k]? = some (.loopBack j) := by
  obtain ⟨k', hm, hf, hb⟩ := hR.forward j h.1
  obtain rfl : k = k' := Option.some.inj (h.2.symm.trans hm)
  exact ⟨hf, hb⟩

theorem Resolved.loopPair_of_forward {piw : Nat} (hR : Resolved piw p)
    (h : p[j]? = some (.loopForward n)) : LoopPair p j n := by
  have hj := isForwardAt_iff.mpr ⟨n, h⟩
  obtain ⟨k, hm, hf, -⟩ := hR.forward j hj
  obtain rfl : n = k := by simpa using h.symm.trans hf
  exact ⟨hj, hm⟩

theorem Resolved.loopPair_of_back {piw : Nat} (hR : Resolved piw p)
    (h : p[k]? = some (.loopBack n)) : LoopPair p n k := by
  obtain ⟨j, hp⟩ := hR.back k (isBackAt_iff.mpr ⟨n, h⟩)
  obtain rfl : n = j := by simpa using h.symm.trans (hR.opcodes_of_loopPair hp).2
  exact hp

/-- A loop opcode inside the body of a pair has its target inside the body. -/
theorem Resolved.target_inside {piw : Nat} (hR : Resolved piw p) (h : LoopPair p j k) (hjm : j < m)
    (hmk : m < k) (hm : p[m]? = some (.loopForward n) ∨ p[m]? = some (.loopBack n)) :
    j < n ∧ n < k := by
  rcases hm with hm | hm
  · have hp := hR.loopPair_of_forward hm
    exact ⟨hjm.trans hp.lt, h.back_inside hp hjm hmk⟩
  · have hp := hR.loopPair_of_back hm
    exact ⟨h.forward_inside hp hjm hmk, hp.lt.trans hmk⟩

/-! ### A step of a well-formed program at an opcode -/

/-- The decoded program names the opcode that the next step executes. -/
theorem phase_run_of_opcode (h : s.Inv) (hA : s.Active)
    (hi : (decodeProgram s.piw s.prog)[s.ip]? = some i) : s.phase = .run i := by
  rw [decodeProgram_getElem?, Option.map_eq_some_iff] at hi
  obtain ⟨w, hw, rfl⟩ := hi
  exact phase_run hA hw (decode_of_imageWf h.2.1 hw).1

theorem executing_of_phase_run (h : s.Inv) (hp : s.phase = .run i) : s.Executing := by
  have hlen := progLen_le_of_inv h
  obtain ⟨-, -, -, hdp, -⟩ := h
  exact ⟨ip_lt_of_phase_run hp, hlen, hdp⟩

theorem LoopPair.back_lt_progLen (h : LoopPair (decodeProgram s.piw s.prog) j k) : k < s.progLen := by
  have hk := lt_length_of_isBackAt (matchingBack_eq_some.mp h.2).1.2.2
  rwa [decodeProgram_length] at hk

/-- Either end of a loop pair tests the cell, and goes past the pair on zero and into its body otherwise. -/
theorem step_at_loopPair (h : s.Inv) (hA : s.Active) (hp : LoopPair (decodeProgram s.piw s.prog) j k)
    (hip : s.ip = j ∨ s.ip = k) :
    step s = .next { s with ip := if s.readCell = 0 then k + 1 else j + 1 } := by
  obtain ⟨hf, hb⟩ := (imageWf_iff.mp h.2.1).2.opcodes_of_loopPair hp
  have hk := hp.back_lt_progLen
  rcases hip with rfl | rfl
  · have hphase := phase_run_of_opcode h hA hf
    exact (step_of_phase_run hphase).trans (exec_loopForward (executing_of_phase_run h hphase) hk)
  · have hphase := phase_run_of_opcode h hA hb
    exact (step_of_phase_run hphase).trans
      (exec_loopBack (executing_of_phase_run h hphase) (hp.lt.trans hk))

/-! ### The obligations -/

/-- Settles O38: a step stays, goes to the next index, or takes a jump, whose target the nesting of the pairs keeps
inside the body. -/
theorem loopBodyIsLeftOnlyAtItsEnd : Obligations.LoopBodyIsLeftOnlyAtItsEnd := by
  intro s t i j h hA hp hi hj hs
  have hjN := hp.back_lt_progLen
  have narrow {n : Nat} (hn : n < j) : (n + 1) % 2 ^ s.piw = n + 1 :=
    narrow_of_le_progLen (progLen_le_of_inv h) (by omega)
  have hipN : s.ip < s.prog.length := hj.trans hjN
  have hw : s.prog[s.ip]? = some s.prog[s.ip] := List.getElem?_eq_getElem hipN
  obtain ⟨hd, hop⟩ := decode_of_imageWf h.2.1 hw
  rcases (step_effect hA hw hd hs).ip_cases_of_opcode with ht | ht | ⟨n, hn, ht⟩
  · omega
  · rw [narrow hj] at ht
    omega
  · obtain ⟨hin, hnj⟩ := (imageWf_iff.mp h.2.1).2.target_inside hp hi hj
      (hn.imp (fun hn => hn ▸ hop) (fun hn => hn ▸ hop))
    rw [narrow hnj] at ht
    omega

/-- Settles O17: the equation of LoopForward, and the terminal check after a jump to `N`. -/
theorem loopForwardSkipsOnZero : Obligations.LoopForwardSkipsOnZero := by
  refine ⟨fun _ _ => decode_forward, rfl, fun s n hE hn => ?_⟩
  have hexec := exec_loopForward hE hn
  have hzero (hc : s.readCell = 0) : exec (.loopForward n) s = .next { s with ip := n + 1 } := by
    rwa [if_pos hc] at hexec
  refine ⟨hzero, fun hc => by rwa [if_neg hc] at hexec, fun hA hc hN => ?_⟩
  exact ⟨_, hzero hc, step_terminal hA hN.ge⟩

/-- Settles O18: the equation of LoopBack; a jump to `ip` leaves the state. -/
theorem loopBackRepeatsOnNonzero : Obligations.LoopBackRepeatsOnNonzero := by
  refine ⟨fun _ _ => decode_back, rfl, fun s n hE hn => ?_⟩
  have hexec := exec_loopBack hE hn
  have hnonzero (hc : s.readCell ≠ 0) : exec (.loopBack n) s = .next { s with ip := n + 1 } := by
    rwa [if_neg hc] at hexec
  refine ⟨hnonzero, fun hc => by rwa [if_pos hc] at hexec, fun hc hip => ?_⟩
  rw [hnonzero hc, hip]

/-- Settles O37: both ends of the pair are one test. -/
theorem loopPairIsAWhileTest : Obligations.LoopPairIsAWhileTest := by
  intro s i j h hA hp
  refine ⟨hp.lt, fun hip hc => ?_, fun hip hc => ?_⟩
  · rw [step_at_loopPair h hA hp hip, if_pos hc]
  · rw [step_at_loopPair h hA hp hip, if_neg hc]

/-- Settles O39: on a nonzero cell the LoopBack goes to the index after the LoopForward, which is its own. -/
theorem emptyLoopRunsForever : Obligations.EmptyLoopRunsForever := by
  intro s i k h hA hp hip hc
  have hstep : step s = .next s := by
    rw [step_at_loopPair h hA hp (.inr hip), if_neg hc, ← hip]
  exact core_run_of_step_self hstep k

end Sys2Proof.Machine
end

section
/-! The end of a run (60_exceptions.md R180 to R185): what leaves a stopped block stopped, what the host sees of a
block that failed, and when a step or an opcode answers a next state. -/

namespace Sys2Proof.Machine

variable {s s' t : State}

/-! ### A stopped block -/

/-- While reset stays released no action of the host or of a collaborator writes the status of a stopped block:
the load and the release of reset leave it, and no request waits to be answered. -/
theorem hostAct_status_of_stopped {a : HostAction} (h : hostAct a s = .next t) (hr : s.rst = false)
    (hs : s.status ≠ .running) (ha : a ≠ .assertReset) : t.status = s.status := by
  rcases hostAct_next_cases h with
    ⟨ws, -, -, -, rfl⟩ | ⟨-, -, rfl⟩ | ⟨rfl, -⟩ | ⟨-, rfl⟩ | ⟨r, -, hreq, -⟩ | ⟨r, -, hreq, -⟩
  · rw [settled_of_released hr]
  · rfl
  · exact absurd rfl ha
  · rw [settled_of_released hr]
  · exact absurd (active_of_inReq hreq).2 hs
  · exact absurd (active_of_outReq hreq).2 hs

/-- After a failure the host sees the status and the output stream alone (60_exceptions.md R182). -/
theorem observe_eq_of_failed (hf : s.status = .outputFailure ∨ s.status = .inputFailure)
    (hst : s'.status = s.status) (hout : s'.delivered = s.delivered) : s.observe = s'.observe := by
  rcases hf with hs | hs <;> simp only [State.observe, hst, hs, hout]

/-! ### The obligations -/

/-- Settles O5: with reset released a step leaves a stopped block as it is, and a host action its status. -/
theorem onlyResetRestarts : Obligations.OnlyResetRestarts := by
  refine ⟨fun s t h hs ht => ?_, fun a s t h hs ht => or_iff_not_imp_left.mpr fun ha => ?_⟩
  · by_contra hrst
    have hstep := step_stopped (eq_false_of_ne_true hrst) hs
    cases hstep.symm.trans h
    exact hs ht
  · by_contra hrst
    exact hs ((hostAct_status_of_stopped h (eq_false_of_ne_true hrst) hs ha).symm.trans ht)

/-- Settles O24: on the tape every opcode has an effect, and off it every opcode faults. -/
theorem opcodesStopOnlyOffTheTape : Obligations.OpcodesStopOnlyOffTheTape := by
  refine fun i s => ⟨fun hdp => ?_, fun hdp => exec_of_offTape hdp i⟩
  obtain ⟨t, ht, -⟩ := exec_effect hdp i
  exact ⟨t, ht⟩

/-- Settles O27: reset, a stopped block and completion always answer; else the word at `ip` decodes, and `dp`
names a cell. -/
theorem stepNeverStopsUnderTheInvariant : Obligations.StepNeverStopsUnderTheInvariant :=
  fun _ => step_answers

/-- Settles O45: a stopped block stays as it is for any number of steps, and of a failed one the host sees neither
tape, `dp` nor `ip`. -/
theorem faultedStateIsUnobservable : Obligations.FaultedStateIsUnobservable := by
  intro s s' k hr hr' hf hst hout
  have hs : s.status ≠ .running := by
    rcases hf with hs | hs <;> simp [hs]
  have hs' : s'.status ≠ .running := hst ▸ hs
  exact ⟨s, s', stoppedBlockTakesNoStep s k hr hs, stoppedBlockTakesNoStep s' k hr' hs',
    observe_eq_of_failed hf hst hout⟩

end Sys2Proof.Machine
end

section
/-! Reset and the host's actions around a run (70_reset_and_hazards.md R210, R212, R214, R215, R219): what reset
makes of any state, when a connection and an answer are taken, and what stays in place once a run has ended. -/

namespace Sys2Proof.Machine

variable {s t : State}

/-! ### Waiting transactions -/

/-- A block that waits at either port is in a run. -/
theorem active_of_waiting (h : s.inReq = true ∨ s.outReq = true) : s.Active :=
  h.elim active_of_inReq active_of_outReq

/-- Under reset no transaction waits: the one that did is abandoned (60_exceptions.md R185). -/
theorem no_request_of_rst (h : s.rst = true) : s.inReq = false ∧ s.outReq = false := by
  have hA : ¬ s.Active := fun hA => absurd (h.symm.trans hA.1) nofun
  exact ⟨eq_false_of_ne_true fun hreq => hA (active_of_inReq hreq),
    eq_false_of_ne_true fun hreq => hA (active_of_outReq hreq)⟩

theorem answerIn_refused (h : s.inReq = false) (a : InAnswer) :
    hostAct (.answerInput a) s = .refused .noRequest :=
  if_neg (by simp [h])

theorem answerOut_refused (h : s.outReq = false) (a : OutAnswer) :
    hostAct (.answerOutput a) s = .refused .noRequest :=
  if_neg (by simp [h])

/-- A run that an input answer leaves on is at the next opcode (42_io.md R140). -/
theorem answerInput_ip_of_active {a : InAnswer} (h : s.Inv) (ha : hostAct (.answerInput a) s = .next t)
    (ht : t.Active) : t.ip = s.ip + 1 := by
  cases hreq : s.inReq with
  | false => cases (answerIn_refused hreq a).symm.trans ha
  | true =>
    cases a with
    | byte b => cases (answerInput_byte h hreq b).symm.trans ha; rfl
    | exhausted => cases (answerInput_exhausted h hreq).symm.trans ha; rfl
    | error =>
      obtain ⟨-, -, -, hdp, -⟩ := h
      cases (answerInput_error hdp hreq).symm.trans ha
      exact absurd ht.2 nofun

/-- A run that an output answer leaves on is at the next opcode (42_io.md R141). -/
theorem answerOutput_ip_of_active {a : OutAnswer} (h : s.Inv) (ha : hostAct (.answerOutput a) s = .next t)
    (ht : t.Active) : t.ip = s.ip + 1 := by
  cases hreq : s.outReq with
  | false => cases (answerOut_refused hreq a).symm.trans ha
  | true =>
    cases a with
    | accepted => cases (answerOutput_accepted h hreq).symm.trans ha; rfl
    | rejected =>
      obtain ⟨-, -, -, hdp, -⟩ := h
      cases (answerOutput_rejected hdp hreq).symm.trans ha
      exact absurd ht.2 nofun

/-! ### The actions outside a run -/

theorem inRun_of_not_active (h : ¬ s.Active) : s.inRun = false :=
  eq_false_of_ne_true (mt inRun_eq_true_iff.mp h)

/-- During a run a connection is refused (R212). -/
theorem connect_refused_of_active (h : s.Active) : hostAct .connect s = .refused .duringRun :=
  if_pos (inRun_eq_true_iff.mpr h)

/-- Releasing reset leaves the reset values in place. -/
theorem releaseReset_of_rst (h : s.rst = true) :
    hostAct .releaseReset s = .next { s.hold with rst := false } := by
  simp only [hostAct, settled_of_rst h]

/-- All that the host and the collaborators can do to a stopped block but assert reset: load the next program,
connect the ports, or change nothing. -/
theorem hostAct_cases_of_stopped {a : HostAction} (h : hostAct a s = .next t) (hr : s.rst = false)
    (hs : s.status ≠ .running) (ha : a ≠ .assertReset) :
    (∃ ws, t = { s with prog := ws }) ∨
    t = { s with inAnswers := [], outAnswers := [], consumed := [], delivered := [] } ∨ t = s := by
  rcases hostAct_next_cases h with
    ⟨ws, -, -, -, rfl⟩ | ⟨-, -, rfl⟩ | ⟨rfl, -⟩ | ⟨-, rfl⟩ | ⟨r, -, hreq, -⟩ | ⟨r, -, hreq, -⟩
  · exact .inl ⟨ws, by rw [settled_of_released hr]⟩
  · exact .inr (.inl rfl)
  · exact absurd rfl ha
  · exact .inr (.inr (by rw [settled_of_released hr, ← hr]))
  · exact absurd (active_of_inReq hreq).2 hs
  · exact absurd (active_of_outReq hreq).2 hs

/-! ### The obligations -/

/-- Settles O28, by the cases of an action: reset and release give reset values, a load is of a well-formed
image, a connection writes the ports alone, and an answer is a step. -/
theorem hostActionsKeepTheInvariant : Obligations.HostActionsKeepTheInvariant :=
  fun _ _ _ => hostAct_inv

/-- Settles O50: an answer without a request is refused, and where a transaction waits after one the run is still
on, at the next opcode. -/
theorem noRequestIsAnsweredTwice : Obligations.NoRequestIsAnsweredTwice :=
  ⟨fun _ a hreq => answerIn_refused hreq a, fun _ a hreq => answerOut_refused hreq a,
    fun _ _ _ h ha hw => answerInput_ip_of_active h ha (active_of_waiting hw),
    fun _ _ _ h ha hw => answerOutput_ip_of_active h ha (active_of_waiting hw)⟩

/-- Settles O52: of the ways a step can end only completion gives DONE, it asks `N ≤ ip`, and the invariant
bounds `ip` by `N`. -/
theorem completedRunStandsAtTheEnd : Obligations.CompletedRunStandsAtTheEnd := by
  intro s t h hrun hs hdone
  obtain ⟨-, -, hip, -⟩ := h
  rcases runEndsOnlyAsTheSpecSays s t hrun hs with
    ⟨-, -, -, -, hst⟩ | ⟨-, hst⟩ | ⟨hN, rfl⟩ | ⟨-, r, -, rfl⟩ | ⟨-, r, -, rfl⟩
  · cases hst.symm.trans hdone
  · cases hst.symm.trans hdone
  · exact ⟨(hip hrun).antisymm hN, rfl⟩
  · cases hdone
  · cases hdone

/-- Settles O53: a step leaves a stopped block as it is, and a host action writes its program or its ports. -/
theorem finalStateStaysUntilReset : Obligations.FinalStateStaysUntilReset := by
  intro e s t hr hs he h
  cases e with
  | step =>
    cases (step_stopped hr hs).symm.trans h
    exact ⟨rfl, rfl, rfl, rfl, hr⟩
  | host a =>
    rcases hostAct_cases_of_stopped h hr hs (fun ha => he (congrArg Event.host ha)) with
      ⟨ws, rfl⟩ | rfl | rfl
    · exact ⟨rfl, rfl, rfl, rfl, hr⟩
    · exact ⟨rfl, rfl, rfl, rfl, hr⟩
    · exact ⟨rfl, rfl, rfl, rfl, hr⟩

/-- Settles O1: the assertion, a step under reset and the release all give the held state, and the block that
leaves reset is active at `ip = 0`. -/
theorem resetReinitialisesTheBlock : Obligations.ResetReinitialisesTheBlock := by
  intro s
  refine ⟨?_, fun hr => ?_, fun hr => ?_⟩
  · obtain ⟨hin, hout⟩ := no_request_of_rst (s := { s.hold with rst := true }) rfl
    exact ⟨_, rfl, rfl, hold_atReset s, hin, hout, ⟨rfl, rfl⟩, ⟨rfl, rfl⟩, rfl, rfl⟩
  · obtain ⟨hin, hout⟩ := no_request_of_rst (s := s.hold) hr
    exact ⟨_, step_held hr, hold_atReset s, hin, hout, ⟨rfl, rfl⟩, ⟨rfl, rfl⟩, rfl, rfl, rfl⟩
  · have hA : State.Active { s.hold with rst := false } := ⟨rfl, rfl⟩
    exact ⟨_, releaseReset_of_rst hr, rfl, hold_atReset s, ⟨rfl, rfl⟩, ⟨rfl, rfl⟩, rfl, rfl,
      fun hN => step_terminal hA (congrArg List.length hN).le, fun _ _ => step_run hA⟩

/-- Settles O54, by the one test of the connection: whether a run is on. -/
theorem connectionBeginsFreshStreams : Obligations.ConnectionBeginsFreshStreams := by
  refine fun s => ⟨fun hA => ?_, connect_refused_of_active⟩
  exact ⟨_, connectPorts_eq (inRun_of_not_active hA), ⟨rfl, rfl⟩, rfl, rfl, rfl, rfl, rfl, rfl, rfl, rfl, rfl⟩

end Sys2Proof.Machine
end
